-- ==== Sys2Proof/Word.lean ====
section
/-! DEFINITION. The two word types of the swift-vm core (00_scope.md R5, R7): 8-bit cells and operand bytes, 16-bit
unsigned registers. Arithmetic on them is BitVec's own, that is modulo 256 and modulo 65536; nothing is signed. -/

namespace Sys2Proof

/-- One memory cell, opcode byte or operand byte: 8 bits, unsigned (R5, R7). -/
abbrev Byte := BitVec 8

/-- One register: 16 bits, unsigned (R5, R11). -/
abbrev Word := BitVec 16

end Sys2Proof
end

