-- ==== Sys2Proof/Config.lean ====
section
/-! DEFINITION. What an instance of the machine fixes: the bounds of the three address bands (00_scope.md R5,
20_memory.md R31), the least size of a memory image (R6), and the one open parameter that is not carried by the image
itself (`HAS_STEP`). `MEM_SIZE` is no constant here: it arrives with the image at construction, and is the `size` of
`Machine.Memory`. -/

namespace Sys2Proof.Config

/-- Last address of the instruction band `[0x00, 0x0d]` (R5, R31). -/
abbrev instrLast : Nat := 0x0d

/-- First address of the output band `[0x0e, 0x0f]` (R5, R31). -/
abbrev outFirst : Nat := 0x0e

/-- Last address of the output band (R5, R31). -/
abbrev outLast : Nat := 0x0f

/-- First address of the input band `[0x10, 0x13]` (R5, R31). -/
abbrev inFirst : Nat := 0x10

/-- Last address of the input band (R5, R31). -/
abbrev inLast : Nat := 0x13

/-- The least number of cells of a memory image (R6, R150). -/
abbrev minImageSize : Nat := 20

/-- The open parameter `HAS_STEP` (R101, D9): whether an instance lets its host call `step()`. The spec gives it no
value and says that it changes no rule, so it has no body (log entry 11). -/
opaque hasStep : Bool

end Sys2Proof.Config
end

