-- ==== Sys2Proof/Machine/Memory.lean ====
section
/-! DEFINITION. The memory image (10_state.md R23, 20_memory.md R30): `size` cells of 8 bits, indexed from 0, held as
a sparse list of cells in one canonical form; reads and writes of one cell, and the two-cell little-endian word
accesses `MemRead` and `MemWrite` of 00_scope.md R7. -/

namespace Sys2Proof.Machine

/-- The memory image. `size` is `MEM_SIZE` (R6), fixed at construction and changed by no operation. `cells` lists the
cells whose byte is not `unlistedByte`, addresses strictly rising (`Memory.wf`). -/
structure Memory where
  size : Nat
  cells : List Host.Cell
deriving DecidableEq, Repr

/-- What a cell of the image that is not listed holds. R25: every cell of the image holds a byte and there is no
unwritten cell; the list leaves out the cells that hold `0x00`. DESIGN CHOICE (log entry 6). -/
def unlistedByte : Byte := 0x00

/-- The byte a list of cells gives to an address, whether or not the image reaches that far. -/
def lookupCell : List Host.Cell → Nat → Byte
  | [], _ => unlistedByte
  | (k, b) :: rest, a => if a = k then b else lookupCell rest a

/-- `mem[a]` (R7): the byte of cell `a`, or `none` where the image has no cell `a`. No value is invented for a cell
that does not exist (R107). -/
def Memory.cell? (m : Memory) (a : Nat) : Option Byte :=
  if a < m.size then some (lookupCell m.cells a) else none

/-- Put a byte at an address, keeping addresses rising. -/
def insertCell : List Host.Cell → Nat → Byte → List Host.Cell
  | [], a, v => [(a, v)]
  | (k, b) :: rest, a, v =>
    if a < k then (a, v) :: (k, b) :: rest
    else if a = k then (a, v) :: rest
    else (k, b) :: insertCell rest a v

/-- The list after a byte is written: an address that now holds `unlistedByte` is not listed. -/
def updateCells (cs : List Host.Cell) (a : Nat) (v : Byte) : List Host.Cell :=
  if v = unlistedByte then cs.filter (fun c => c.1 != a) else insertCell cs a v

/-- `MemWrite(a, 1, v)` (R7). Where the image has no cell `a` there is nothing to write. -/
def Memory.setByte (m : Memory) (a : Nat) (v : Byte) : Memory :=
  if a < m.size then { m with cells := updateCells m.cells a v } else m

/-- Bytes written to consecutive cells at ascending addresses (R50). -/
def Memory.setBytes (m : Memory) (a : Nat) : List Byte → Memory
  | [] => m
  | b :: bs => (m.setByte a b).setBytes (a + 1) bs

/-- `v mod 256` (R106). -/
def lowByte (v : Word) : Byte := BitVec.ofNat 8 (v.toNat % 256)

/-- `v / 256` (R106). -/
def highByte (v : Word) : Byte := BitVec.ofNat 8 (v.toNat / 256)

/-- The little-endian word of a low and a high byte: `lo + 256 * hi` (R35, R105). -/
def wordOfBytes (lo hi : Byte) : Word := BitVec.ofNat 16 (lo.toNat + 256 * hi.toNat)

/-- `MemRead(a, 2)` (R7, R35): the low byte from cell `a`, the high byte from cell `a + 1`; `none` where one of the two
cells does not exist. -/
def Memory.readWord (m : Memory) (a : Nat) : Option Word :=
  match m.cell? a, m.cell? (a + 1) with
  | some lo, some hi => some (wordOfBytes lo hi)
  | _, _ => none

/-- `MemWrite(a, 2, v)` (R7, R35): the low byte to cell `a`, the high byte to cell `a + 1`; `none` where one of the two
cells does not exist. The order of the two writes cannot be observed (R39, log entry 17). -/
def Memory.writeWord (m : Memory) (a : Nat) (v : Word) : Option Memory :=
  if a + 1 < m.size then some ((m.setByte a (lowByte v)).setByte (a + 1) (highByte v)) else none

/-- The cells of an image from address `a` on, in canonical form. -/
def cellsFrom (a : Nat) : List Byte → List Host.Cell
  | [] => []
  | b :: bs => if b = unlistedByte then cellsFrom (a + 1) bs else (a, b) :: cellsFrom (a + 1) bs

/-- The memory that holds a caller-supplied image: `mem[a] = image[a]` for every `a` below the image's length (R25,
R151). -/
def Memory.ofImage (image : List Byte) : Memory := ⟨image.length, cellsFrom 0 image⟩

/-- The canonical form: addresses strictly rising and inside the image, no listed cell that holds `unlistedByte`. -/
abbrev Memory.wf (m : Memory) : Prop :=
  m.cells.Pairwise (fun c d => c.1 < d.1) ∧ ∀ c ∈ m.cells, c.1 < m.size ∧ c.2 ≠ unlistedByte

end Sys2Proof.Machine
end

