-- ==== Sys2Proof/Syntax.lean ====
section
/-! DEFINITION. The instruction set as syntax: the closed set of register identifiers (10_state.md R12, R13), the five
Instruction variants, one per row of spec/opcode_table.json (00_scope.md R2, 40_decoder.md R79), and the error kinds
(60_exceptions.md R130). -/

namespace Sys2Proof

/-- A register identifier (R12). The set is closed: an instruction can name no fourth register (R13). -/
inductive Reg where
  /-- PC, identifier `0x00` (log entry 1). -/
  | pc
  /-- GP1, identifier `0x01`. -/
  | gp1
  /-- GP2, identifier `0x02`. -/
  | gp2
deriving DecidableEq, Repr

/-- The tagged variant of R79, each case with its own operands only. An address operand is the raw operand byte (R54);
that it lies in the band its opcode asks for is `Instr.WellFormed`. -/
inductive Instr where
  /-- `LoadWord(r, addr)`, R105. -/
  | loadWord (r : Reg) (addr : Byte)
  /-- `StoreWord(r, addr)`, R106. -/
  | storeWord (r : Reg) (addr : Byte)
  /-- `Add(a, b)`, R115. -/
  | add (a b : Reg)
  /-- `Sub(a, b)`, R116. -/
  | sub (a b : Reg)
  /-- `Halt`, R125. -/
  | halt
deriving DecidableEq, Repr

/-- The four error kinds of R130: three of the decoder and the spec's own fourth. "No error" is `none` of
`Option ErrorKind`, the `None` of R19. -/
inductive ErrorKind where
  /-- Decoder steps 1 and 4 (R131). -/
  | instructionOutOfBounds
  /-- Decoder step 2 (R132). -/
  | unknownInstruction
  /-- Decoder step 5 (R133). -/
  | paramMismatchForInstruction
  /-- The engine, on a read of a cell that does not exist (R134, log entry 7). -/
  | accessBeyondImage
deriving DecidableEq, Repr

end Sys2Proof
end

