-- ==== Sys2Proof/WellFormed.lean ====
section
/-! DEFINITION. Which Instruction values are well formed: the 37 of 30_encoding.md R63, that is those the decoder can
build (40_decoder.md R79). -/

namespace Sys2Proof

/-- R77, R78, R79: a `LoadWord` address lies in the input band, a `StoreWord` address in the output band. Register
operands are well formed by their type. -/
def Instr.wellFormed : Instr → Bool
  | .loadWord _ addr => decide (Config.inFirst ≤ addr.toNat) && decide (addr.toNat ≤ Config.inLast)
  | .storeWord _ addr => decide (Config.outFirst ≤ addr.toNat) && decide (addr.toNat ≤ Config.outLast)
  | .add _ _ => true
  | .sub _ _ => true
  | .halt => true

/-- `Instr.wellFormed` as a proposition. -/
abbrev Instr.WellFormed (i : Instr) : Prop := i.wellFormed = true

end Sys2Proof
end

