-- ==== Sys2Proof/Decode.lean ====
section
/-! DEFINITION. The instruction decoder (40_decoder.md R70 to R79): a pure, total function from a memory and a 16-bit
program counter to an Instruction or an error kind, in the three parts of R81; the encoder written from the formats of
30_encoding.md R51 to R53; the instruction sizes of R57; and the opcode table's words as bytes (R56). -/

namespace Sys2Proof

open Sys2Proof.Machine (Memory)

/-- The five known opcodes, the output of the opcode parser (R81). -/
inductive OpClass where
  | load
  | store
  | add
  | sub
  | halt
deriving DecidableEq, Repr

/-- The register a register-identifier byte names; every byte above `0x02` names none (R12). `0x00` is PC by
elimination (DEDUCED, log entry 1). -/
def Reg.ofId? (b : Byte) : Option Reg :=
  if b = 0x00 then some .pc
  else if b = 0x01 then some .gp1
  else if b = 0x02 then some .gp2
  else none

/-- The identifier byte of a register (R12, R61). -/
def Reg.id : Reg → Byte
  | .pc => 0x00
  | .gp1 => 0x01
  | .gp2 => 0x02

/-- The opcode map (R55): the class of an opcode byte, `none` for the 251 illegal values (R58). -/
def OpClass.ofOpcode? (op : Byte) : Option OpClass :=
  if op = 0x01 then some .load
  else if op = 0x02 then some .store
  else if op = 0x03 then some .add
  else if op = 0x04 then some .sub
  else if op = 0xff then some .halt
  else none

/-- The byte a decode reads at an address (R84). Every address a decode reads is in the instruction band, so the cell
exists in every image of at least 20 cells; in a shorter image, which no run has, the missing cell is
`accessBeyondImage` (log entry 18). -/
def fetchByte (m : Memory) (a : Nat) : Except ErrorKind Byte :=
  match m.cell? a with
  | some b => .ok b
  | none => .error .accessBeyondImage

/-- Decoder steps 1 to 3, the opcode parser (R72, R73, R74, R81): the program-counter bound, then the opcode byte. -/
def parseOpcode (m : Memory) (pc : Word) : Except ErrorKind OpClass :=
  if Config.instrLast < pc.toNat then .error .instructionOutOfBounds
  else
    match fetchByte m pc.toNat with
    | .error k => .error k
    | .ok op =>
      match OpClass.ofOpcode? op with
      | none => .error .unknownInstruction
      | some c => .ok c

/-- Decoder step 4 (R75): the two operand bytes, read only after both their addresses passed the bound. -/
def operandBytes (m : Memory) (pc : Word) : Except ErrorKind (Byte × Byte) :=
  if Config.instrLast < pc.toNat + 2 then .error .instructionOutOfBounds
  else
    match fetchByte m (pc.toNat + 1), fetchByte m (pc.toNat + 2) with
    | .ok b1, .ok b2 => .ok (b1, b2)
    | _, _ => .error .accessBeyondImage

/-- An Instruction kept only if it is well formed: the band test on the address byte (R77, R78). -/
def checkBand (i : Instr) : Option Instr := if i.wellFormed then some i else none

/-- Decoder step 5 and the instruction constructor (R76 to R79): the operand bytes validated for the opcode and copied
into the Instruction without change; `none` where an operand byte is outside its legal set (R59). -/
def buildInstr (c : OpClass) (b1 b2 : Byte) : Option Instr :=
  match c with
  | .load =>
    match Reg.ofId? b1 with
    | some r => checkBand (.loadWord r b2)
    | none => none
  | .store =>
    match Reg.ofId? b1 with
    | some r => checkBand (.storeWord r b2)
    | none => none
  | .add =>
    match Reg.ofId? b1, Reg.ofId? b2 with
    | some a, some b => some (.add a b)
    | _, _ => none
  | .sub =>
    match Reg.ofId? b1, Reg.ofId? b2 with
    | some a, some b => some (.sub a b)
    | _, _ => none
  | .halt => some .halt

/-- Steps 4 and 5 for an opcode that has operands (R75 to R79). -/
def decodeOperands (m : Memory) (pc : Word) (c : OpClass) : Except ErrorKind Instr :=
  match operandBytes m pc with
  | .error k => .error k
  | .ok (b1, b2) =>
    match buildInstr c b1 b2 with
    | some i => .ok i
    | none => .error .paramMismatchForInstruction

/-- `decode(memory, programCounter)` (R70), the checks in their normative order (R72 to R78, R137). `Halt` is decided
by the opcode byte alone (R74). -/
def decode (m : Memory) (pc : Word) : Except ErrorKind Instr :=
  match parseOpcode m pc with
  | .error k => .error k
  | .ok .halt => .ok .halt
  | .ok c => decodeOperands m pc c

/-- The instruction's size in bytes: 1 for `Halt`, 3 for every other (R57). -/
def Instr.size : Instr → Nat
  | .halt => 1
  | .loadWord _ _ => 3
  | .storeWord _ _ => 3
  | .add _ _ => 3
  | .sub _ _ => 3

/-- The bytes of an instruction in ascending addresses, opcode first: formats H, RA and RR (R50 to R53, R61). -/
def encode : Instr → List Byte
  | .loadWord r addr => [0x01, r.id, addr]
  | .storeWord r addr => [0x02, r.id, addr]
  | .add a b => [0x03, a.id, b.id]
  | .sub a b => [0x04, a.id, b.id]
  | .halt => [0xff]

/-- The `n` low bytes of a number, the most significant first. -/
def bytesDown : Nat → Nat → List Byte
  | 0, _ => []
  | n + 1, w => BitVec.ofNat 8 (w / 256 ^ n) :: bytesDown n w

/-- An instruction word of spec/opcode_table.json as the three bytes from its first address on. R56: the opcode byte,
at the lowest address, is the most significant byte of the row's number; bytes that the row has no bits for are 0 (log
entry 16). -/
def tableBytes (nbits w : Nat) : List Byte :=
  (bytesDown ((nbits + 7) / 8) w ++ [0x00, 0x00, 0x00]).take 3

/-- What `decode` reads from a table word placed at address 0 of an image of the least size. -/
def decodeTableWord (nbits w : Nat) : Option Instr :=
  match decode ((Memory.mk Config.minImageSize []).setBytes 0 (tableBytes nbits w)) 0x0000 with
  | .ok i => some i
  | .error _ => none

end Sys2Proof
end

