-- ==== Sys2Proof/Machine/State.lean ====
section
/-! DEFINITION. The whole architectural state (10_state.md R10), its reset values (R25, 70_reset_and_hazards.md R151),
and the two closed sets of reasons a step can stop for. -/

namespace Sys2Proof.Machine

/-- The engine state `fsm` (R19, R90). `faulted` is how the spec surfaces an error (D6, log entry 8). -/
inductive Fsm where
  | running
  | halted
  | faulted
deriving DecidableEq, Repr

/-- The state tuple of R10. There are no flags, no stack, no interrupt state and no hidden state (R18, R21, R22). -/
structure State where
  /-- `x[0]`, the program counter (R15). -/
  pc : Word
  /-- `x[1]`, general-purpose register 1 (R11). -/
  gp1 : Word
  /-- `x[2]`, general-purpose register 2 (R11). -/
  gp2 : Word
  /-- The memory image (R23). -/
  mem : Memory
  /-- The engine state (R19). -/
  fsm : Fsm
  /-- The recorded error kind, `none` for the spec's `None` (R19). -/
  err : Option ErrorKind
  /-- The instructions executed since reset, oldest first (R20). -/
  trace : List Instr
deriving DecidableEq, Repr

/-- Why the machine stops with a fault. The spec's own errors are not here: they are states (`Fsm.faulted`, R135). -/
inductive Fault where
  /-- Raised by `execStoreWord` where one of the two cells to be written does not exist. R7 asks of `MemWrite` that
  every touched cell exist and no rule says what happens otherwise. No decoded `StoreWord` can raise it in an image of
  at least 20 cells (R106). Safe: the model stops where the spec gives no meaning (log entry 14). -/
  | storeBeyondImage
deriving DecidableEq, Repr

/-- Why a step has no meaning. -/
inductive Refusal where
  /-- Raised by an arm of `exec` for an instruction that has no meaning in the model. Safe. No arm raises it. -/
  | notModelled (mnemonic : String)
  /-- Raised by `construct` on an image of fewer than 20 cells, and by `cycle` in a state whose memory is that short:
  R153, "the model refuses to construct (no meaning is given)". Safe (log entry 13). -/
  | imageTooShort
deriving DecidableEq, Repr

/-- The machine right after reset: R25 and R151, built on an image of 20 cells that all hold `0x00`. The image is the
caller's (R150) and the spec names none: size 20 and all-zero bytes are DESIGN CHOICE (log entries 4 and 5). Every
other field has the value the spec states. `construct` is reset for any image. -/
def State.reset : State where
  pc := 0x0000
  gp1 := 0x0000
  gp2 := 0x0000
  mem := ⟨Config.minImageSize, []⟩
  fsm := .running
  err := none
  trace := []

end Sys2Proof.Machine
end

