-- ==== Sys2Proof/Machine/Operands.lean ====
section
/-! DEFINITION. The operand forms: a register operand, read and written (10_state.md R11 to R14), and the one
addressing mode, an absolute 8-bit cell address (30_encoding.md R54). There is no immediate, displacement or scaled
form, and there are no flags to compute (R18). -/

namespace Sys2Proof.Machine

/-- `x[r]` (R7). Never fails (R13). As an operand PC reads as the address of the instruction being executed, because
the advance comes after (R15). -/
def State.readReg (s : State) : Reg → Word
  | .pc => s.pc
  | .gp1 => s.gp1
  | .gp2 => s.gp2

/-- `x[r] <- v` (R7): all 16 bits. No register is hardwired (R11). -/
def State.writeReg (s : State) (r : Reg) (v : Word) : State :=
  match r with
  | .pc => { s with pc := v }
  | .gp1 => { s with gp1 := v }
  | .gp2 => { s with gp2 := v }

/-- The cell an address operand names: the unsigned value of its byte (R54). -/
def cellAddress (addr : Byte) : Nat := addr.toNat

end Sys2Proof.Machine
end

