-- ==== Sys2Proof/Machine/Ops.lean ====
section
/-! DEFINITION. The operations the meanings share: the adder of the ALU (43_add_sub.md R117), the end of an executed
instruction (41_engine_cycle.md R91, R94, R99), and fault entry (60_exceptions.md R135). There is no return from a
fault (R139): only construction leaves `faulted` (R155). -/

namespace Sys2Proof.Machine

/-- `a +_16 b` (R7): addition modulo 65536, no flag, no trap (R117). -/
def addWord (a b : Word) : Word := a + b

/-- `a -_16 b` (R7): subtraction modulo 65536 (R117). -/
def subWord (a b : Word) : Word := a - b

/-- Fault entry (R135): `fsm <- Faulted`, `err <- k`, and nothing else changes. No register is saved and control goes
nowhere. -/
def State.takeFault (s : State) (k : ErrorKind) : State := { s with fsm := .faulted, err := some k }

/-- `trace <- trace ++ [i]` (R99; `Halt` included: log entry 10). -/
def State.record (s : State) (i : Instr) : State := { s with trace := s.trace ++ [i] }

/-- `pc <- pc +_16 n` (R94). The `pc` advanced is the one the execute phase left, so a value just written to PC is
advanced too (R16, R95: log entry 2), modulo 65536 (log entry 3). -/
def State.advance (s : State) (n : Nat) : State := { s with pc := addWord s.pc (BitVec.ofNat 16 n) }

/-- The end of a cycle that executed a non-halt instruction (R91): it is recorded and PC advances by its size (R57). -/
def State.retire (s : State) (i : Instr) : State := (s.record i).advance i.size

end Sys2Proof.Machine
end

