-- ==== Sys2Proof/Machine/Arithmetic.lean ====
section
/-! DEFINITION. The meanings of `Add` and `Sub` (43_add_sub.md): both operands are read before the destination is
written (R118), the result wraps modulo 65536, and no flag exists (R117). -/

namespace Sys2Proof.Machine

/-- `Add(a, b)` (R115): `x[a] <- x[a] +_16 x[b]`, then the advance. -/
def execAdd (a b : Reg) (s : State) : Host.Outcome State Fault Refusal :=
  .next ((s.writeReg a (addWord (s.readReg a) (s.readReg b))).retire (.add a b))

/-- `Sub(a, b)` (R116): `x[a] <- x[a] -_16 x[b]`, then the advance. -/
def execSub (a b : Reg) (s : State) : Host.Outcome State Fault Refusal :=
  .next ((s.writeReg a (subWord (s.readReg a) (s.readReg b))).retire (.sub a b))

end Sys2Proof.Machine
end

