-- ==== Sys2Proof/Machine/Halt.lean ====
section
/-! DEFINITION. The meaning of `Halt` (44_halt.md). -/

namespace Sys2Proof.Machine

/-- `Halt` (R125): recorded, then `fsm <- Halted`. PC is not advanced (R16, R94); no register, no memory cell and not
`err` changes. -/
def execHalt (s : State) : Host.Outcome State Fault Refusal :=
  .next { s.record .halt with fsm := .halted }

end Sys2Proof.Machine
end

