-- ==== Sys2Proof/Machine/LoadStore.lean ====
section
/-! DEFINITION. The meanings of `LoadWord` and `StoreWord` (42_load_store.md). The engine makes no band check and no
alignment check of its own (R80, R37). -/

namespace Sys2Proof.Machine

/-- `LoadWord(r, addr)` (R105): `x[r] <- MemRead(addr, 2)`, then the advance. Where one of the two cells does not exist
the cycle faults with `AccessBeyondImage` before anything changes (R91, R107: log entry 7). -/
def execLoadWord (r : Reg) (addr : Byte) (s : State) : Host.Outcome State Fault Refusal :=
  match s.mem.readWord (cellAddress addr) with
  | some v => .next ((s.writeReg r v).retire (.loadWord r addr))
  | none => .next (s.takeFault .accessBeyondImage)

/-- `StoreWord(r, addr)` (R106): `MemWrite(addr, 2, x[r])`, then the advance. At `addr = 0x0f` the high byte goes to
cell `0x10` (R108: log entry 9). -/
def execStoreWord (r : Reg) (addr : Byte) (s : State) : Host.Outcome State Fault Refusal :=
  match s.mem.writeWord (cellAddress addr) (s.readReg r) with
  | some m => .next (State.retire { s with mem := m } (.storeWord r addr))
  | none => .fault .storeBeyondImage

end Sys2Proof.Machine
end

