-- ==== Sys2Proof/Machine/Dispatch.lean ====
section
/-! DEFINITION. The execute dispatch (41_engine_cycle.md R93): one arm per Instruction variant and no default arm. -/

namespace Sys2Proof.Machine

/-- The execute phase and the advance of one decoded instruction. -/
def exec (i : Instr) (s : State) : Host.Outcome State Fault Refusal :=
  match i with
  | .loadWord r addr => Sys2Proof.Machine.execLoadWord r addr s
  | .storeWord r addr => Sys2Proof.Machine.execStoreWord r addr s
  | .add a b => Sys2Proof.Machine.execAdd a b s
  | .sub a b => Sys2Proof.Machine.execSub a b s
  | .halt => Sys2Proof.Machine.execHalt s

end Sys2Proof.Machine
end

