-- ==== Sys2Proof/Machine/Cycle.lean ====
section
/-! DEFINITION. One engine cycle and the step relation (41_engine_cycle.md R91, R92, R98, R101). -/

namespace Sys2Proof.Machine

/-- One engine cycle (R91), meant for `fsm = running`: decode at PC; an error kind is taken as a fault (R92, R135); an
instruction is executed. A memory of fewer than 20 cells is no image and has no meaning (R153). -/
def cycle (s : State) : Host.Outcome State Fault Refusal :=
  if s.mem.size < Config.minImageSize then .refused .imageTooShort
  else
    match decode s.mem s.pc with
    | .error k => .next (s.takeFault k)
    | .ok i => exec i s

/-- `step()` (R101): one cycle in `running`, nothing in a terminal state (R98). -/
def engineStep (s : State) : Host.Outcome State Fault Refusal :=
  match s.fsm with
  | .running => cycle s
  | .halted => .next s
  | .faulted => .next s

/-- A state whose next fetch finds these bytes: they stand at PC and the cells after it. -/
def State.withFetchBytes (s : State) (bs : List Byte) : State :=
  { s with mem := s.mem.setBytes s.pc.toNat bs }

end Sys2Proof.Machine
end

