-- ==== Sys2Proof/Machine/Step.lean ====
section
/-! DEFINITION. The machine's step, and the host's way of placing one instruction word where the step fetches. -/

namespace Sys2Proof.Machine

/-- The step of the machine is the spec's `step()` (R101). -/
def step (s : State) : Host.Outcome State Fault Refusal := engineStep s

/-- The state with an instruction word of spec/opcode_table.json in the three cells from PC on. It stands for the host
supplying an image that holds the word (log entry 15). -/
def State.withFetchWord (s : State) (nbits w : Nat) : State := s.withFetchBytes (tableBytes nbits w)

end Sys2Proof.Machine
end

