-- ==== Sys2Proof/Machine/HostInterface.lean ====
section
/-! DEFINITION. What the host can do (70_reset_and_hazards.md R150 to R156) and read (41_engine_cycle.md R100), the
decoder's interface as a hardware block (40_decoder.md R82), and the numeric codes (60_exceptions.md R136). -/

namespace Sys2Proof.Machine

/-- Construction, the machine's only reset (R150, R151, R155): the engine built on an image; an image of fewer than 20
cells is refused (R153). -/
def construct (image : List Byte) : Host.Outcome State Fault Refusal :=
  if image.length < Config.minImageSize then .refused .imageTooShort
  else .next { State.reset with mem := Memory.ofImage image }

/-- The host's call of `step()`: `none` where the instance does not expose it (R101, R156). -/
def hostStep (s : State) : Option (Host.Outcome State Fault Refusal) :=
  if Config.hasStep then some (step s) else none

/-- `result()` (R100): the little-endian word of the output band. `none` only where the image has no output band, which
no image of at least 20 cells is. -/
def State.result (s : State) : Option Word := s.mem.readWord Config.outFirst

/-- What the observation interface returns (R100). -/
structure Observation where
  pc : Word
  gp1 : Word
  gp2 : Word
  result : Option Word
  fsm : Fsm
  err : Option ErrorKind
  executed : List Instr
deriving DecidableEq, Repr

/-- The queries of R100, read between cycles or after a run; none changes the state. -/
def State.observe (s : State) : Observation where
  pc := s.readReg .pc
  gp1 := s.readReg .gp1
  gp2 := s.readReg .gp2
  result := s.result
  fsm := s.fsm
  err := s.err
  executed := s.trace

/-- The code of an error kind (R136); 0 is `None`. -/
def errCode : Option ErrorKind → BitVec 3
  | none => 0
  | some .instructionOutOfBounds => 1
  | some .unknownInstruction => 2
  | some .paramMismatchForInstruction => 3
  | some .accessBeyondImage => 4

/-- The code of an engine state (R136). -/
def fsmCode : Fsm → BitVec 2
  | .running => 0
  | .halted => 1
  | .faulted => 2

/-- The outputs of the decoder block (R82). An output is `none` where its condition does not hold and it carries no
meaning (log entry 20). -/
structure DecoderPort where
  ok : BitVec 1
  errKind : BitVec 3
  tag : Option (BitVec 3)
  f1 : Option (BitVec 2)
  f2 : Option (BitVec 8)
  size : Option (BitVec 2)
deriving DecidableEq, Repr

/-- The two-bit register identifier of the `f1` output (R82). -/
def regCode : Reg → BitVec 2
  | .pc => 0
  | .gp1 => 1
  | .gp2 => 2

/-- The `tag`, `f1` and `f2` outputs of an Instruction (R82). -/
def portFields : Instr → BitVec 3 × Option (BitVec 2) × Option (BitVec 8)
  | .loadWord r addr => (1, some (regCode r), some addr)
  | .storeWord r addr => (2, some (regCode r), some addr)
  | .add a b => (3, some (regCode a), some b.id)
  | .sub a b => (4, some (regCode a), some b.id)
  | .halt => (7, none, none)

/-- The decoder block: combinational, no clock, no enable and no state (R82). -/
def decoderPort (m : Memory) (pc : Word) : DecoderPort :=
  match decode m pc with
  | .error k => { ok := 0, errKind := errCode (some k), tag := none, f1 := none, f2 := none, size := none }
  | .ok i =>
    { ok := 1, errKind := errCode none, tag := some (portFields i).1, f1 := (portFields i).2.1,
      f2 := (portFields i).2.2, size := some (BitVec.ofNat 2 i.size) }

end Sys2Proof.Machine
end

