-- ==== Sys2Proof/Safety.lean ====
section
/-! DEFINITION. Runs of the machine and what counts as a good one (41_engine_cycle.md R96, R97;
70_reset_and_hazards.md R157). -/

namespace Sys2Proof

open Sys2Proof.Machine

/-- `StepsTo s t`: some number of steps, each answering a next state, leads from `s` to `t`. No bound is put on the
number (R97). -/
inductive StepsTo : State → State → Prop where
  | refl (s : State) : StepsTo s s
  | tail {s t u : State} : StepsTo s t → step t = .next u → StepsTo s u

/-- `run()` called in `s` returns in `t` (R96): the cycle repeats while the engine is running, and control comes back
when it is not. A run that never leaves `running` returns in no state (R97). -/
inductive RunReturns : State → State → Prop where
  | stopped {s : State} : s.fsm ≠ .running → RunReturns s s
  | cycled {s t u : State} : s.fsm = .running → cycle s = .next t → RunReturns t u → RunReturns s u

/-- A completed run: it ended in `Halted` (R157). -/
abbrev Completed (s : State) : Prop := s.fsm = .halted

/-- Gone wrong: the run ended in `Faulted`, never a final state in the source's sense (R157). -/
abbrev GoneWrong (s : State) : Prop := s.fsm = .faulted

/-- The register an instruction's execute phase writes, before the advance (R14). -/
def Instr.destination : Instr → Option Reg
  | .loadWord r _ => some r
  | .add a _ => some a
  | .sub a _ => some a
  | .storeWord _ _ => none
  | .halt => none

/-- The machine's invariant: the memory is an image of at least 20 cells (R6) in canonical form; an error is recorded
exactly in `Faulted` (R19); only well-formed Instructions have executed (R79). -/
structure MachineInv (s : State) : Prop where
  image : Config.minImageSize ≤ s.mem.size
  memory : s.mem.wf
  error : s.err = none ↔ s.fsm ≠ .faulted
  executed : ∀ i ∈ s.trace, i.WellFormed

/-- A halted engine stands at the `Halt` that stopped it (R15, R125), which is the last instruction it executed and the
only `Halt` among them (R99, D8). -/
structure HaltInv (s : State) : Prop where
  atHalt : s.fsm = .halted → decode s.mem s.pc = .ok .halt ∧ ∃ earlier, s.trace = earlier ++ [.halt] ∧ .halt ∉ earlier
  noHalt : s.fsm ≠ .halted → .halt ∉ s.trace

/-- A faulted engine stands at the address of the failing cycle (R138) and its recorded kind is the one that cycle
raised: the decoder's error at PC (R135), or `AccessBeyondImage` for a `LoadWord` at `0x13` in an image of 20 cells
(R134). -/
def FaultInv (s : State) : Prop :=
  s.fsm = .faulted →
    (∃ k, s.err = some k ∧ decode s.mem s.pc = .error k) ∨
    (s.err = some .accessBeyondImage ∧ s.mem.size = 20 ∧ ∃ r, decode s.mem s.pc = .ok (.loadWord r 0x13))

/-- Two states agree in every register, in the control state, in the trace, and in the memory cells that `P` selects. -/
structure AgreeOn (P : Nat → Prop) (s t : State) : Prop where
  pc : s.pc = t.pc
  gp1 : s.gp1 = t.gp1
  gp2 : s.gp2 = t.gp2
  fsm : s.fsm = t.fsm
  err : s.err = t.err
  trace : s.trace = t.trace
  cells : ∀ a, P a → s.mem.cell? a = t.mem.cell? a

end Sys2Proof
end

