-- ==== Sys2Proof/Certificates/Slice0/Obligations.lean ====
section
/-! DEFINITION. The statements about the machine, for the provers. Each docstring names the rule of spec/ a statement
formalises, or says which sentence of the spec, itself marked there as a decision or a derivation, it rests on, with the
log entry that records it. Addresses are written `cellAddress addr`, the function the meanings use. -/

open Sys2Proof Sys2Proof.Machine

/-! Construction and reset. -/

/-- What construction leaves, for every image of at least 20 cells, as R151 lists it. That reset is construction, and
the fields `err` and `trace`, are decisions D7, D8 and D16 of the spec (log entries 8 and 10). -/
def Obligations.ConstructLoadsImageAndClearsState : Prop :=
  ∀ image : List Byte, 20 ≤ image.length →
    ∃ s, construct image = .next s ∧ s.pc = 0x0000 ∧ s.gp1 = 0x0000 ∧ s.gp2 = 0x0000 ∧
      s.mem.size = image.length ∧ (∀ a, s.mem.cell? a = image[a]?) ∧
      s.fsm = .running ∧ s.err = none ∧ s.trace = []

/-- An image of fewer than 20 cells has no meaning: construction refuses it, and a running engine over such a memory
refuses to step. Rests on decision D4 of the spec (log entry 13). -/
def Obligations.ShortImagesAreRefused : Prop :=
  (∀ image : List Byte, image.length < 20 → construct image = .refused .imageTooShort) ∧
  ∀ s : State, s.fsm = .running → s.mem.size < 20 → step s = .refused .imageTooShort

/-- The reset state, on the model's own image of twenty zero cells (log entries 4 and 5), satisfies the three
invariants that every step keeps. -/
def Obligations.ResetSatisfiesInvariants : Prop :=
  MachineInv State.reset ∧ HaltInv State.reset ∧ FaultInv State.reset

/-! The decoder. -/

/-- R72: the program-counter bound, whatever the memory holds; at or below `0x000d` the opcode parser, which step 1
belongs to, never fails with this kind. -/
def Obligations.DecodeOutsideInstructionBandFails : Prop :=
  ∀ (m : Memory) (pc : Word),
    (0x000d < pc.toNat → decode m pc = .error .instructionOutOfBounds) ∧
    (pc.toNat ≤ 0x000d → parseOpcode m pc ≠ .error .instructionOutOfBounds)

/-- R73: in the band, a decode fails with `UnknownInstruction` exactly when the opcode byte is none of the five. -/
def Obligations.DecodeFailsOnUnknownOpcode : Prop :=
  ∀ (m : Memory) (pc : Word) (op : Byte), pc.toNat ≤ 0x000d → m.cell? pc.toNat = some op →
    (decode m pc = .error .unknownInstruction ↔
      op ≠ 0x01 ∧ op ≠ 0x02 ∧ op ≠ 0x03 ∧ op ≠ 0x04 ∧ op ≠ 0xff)

/-- R74: a `0xff` byte in the band decodes as `Halt`, whatever the cells after it hold. -/
def Obligations.DecodeHaltReadsNoOperands : Prop :=
  ∀ (m : Memory) (pc : Word), pc.toNat ≤ 0x000d → m.cell? pc.toNat = some 0xff → decode m pc = .ok .halt

/-- R75: with a three-byte opcode in the band, a decode fails with `InstructionOutOfBounds` exactly when `pc + 2` is
beyond the band, whatever the operand cells hold. -/
def Obligations.DecodeBoundsOperandAddresses : Prop :=
  ∀ (m : Memory) (pc : Word) (op : Byte), pc.toNat ≤ 0x000d → m.cell? pc.toNat = some op →
    (op = 0x01 ∨ op = 0x02 ∨ op = 0x03 ∨ op = 0x04) →
    (decode m pc = .error .instructionOutOfBounds ↔ 0x000d < pc.toNat + 2)

/-- R76: `Add` and `Sub` decode exactly when both operand bytes are register identifiers, to the Instruction on the
registers with those identifiers; else `ParamMismatchForInstruction`. -/
def Obligations.DecodeAddSubValidatesRegisters : Prop :=
  ∀ (m : Memory) (pc : Word) (b1 b2 : Byte), pc.toNat ≤ 0x000b →
    m.cell? (pc.toNat + 1) = some b1 → m.cell? (pc.toNat + 2) = some b2 →
    (m.cell? pc.toNat = some 0x03 →
      (b1.toNat ≤ 2 ∧ b2.toNat ≤ 2 → ∃ a b, a.id = b1 ∧ b.id = b2 ∧ decode m pc = .ok (.add a b)) ∧
      (¬ (b1.toNat ≤ 2 ∧ b2.toNat ≤ 2) → decode m pc = .error .paramMismatchForInstruction)) ∧
    (m.cell? pc.toNat = some 0x04 →
      (b1.toNat ≤ 2 ∧ b2.toNat ≤ 2 → ∃ a b, a.id = b1 ∧ b.id = b2 ∧ decode m pc = .ok (.sub a b)) ∧
      (¬ (b1.toNat ≤ 2 ∧ b2.toNat ≤ 2) → decode m pc = .error .paramMismatchForInstruction))

/-- R77: `LoadWord` decodes exactly when the first operand byte is a register identifier and the second lies in the
input band; else `ParamMismatchForInstruction`. -/
def Obligations.DecodeLoadWordValidatesOperands : Prop :=
  ∀ (m : Memory) (pc : Word) (b1 b2 : Byte), pc.toNat ≤ 0x000b → m.cell? pc.toNat = some 0x01 →
    m.cell? (pc.toNat + 1) = some b1 → m.cell? (pc.toNat + 2) = some b2 →
    (b1.toNat ≤ 2 ∧ 0x10 ≤ b2.toNat ∧ b2.toNat ≤ 0x13 →
      ∃ r, r.id = b1 ∧ decode m pc = .ok (.loadWord r b2)) ∧
    (¬ (b1.toNat ≤ 2 ∧ 0x10 ≤ b2.toNat ∧ b2.toNat ≤ 0x13) →
      decode m pc = .error .paramMismatchForInstruction)

/-- R78: `StoreWord` decodes exactly when the first operand byte is a register identifier and the second lies in the
output band; else `ParamMismatchForInstruction`. -/
def Obligations.DecodeStoreWordValidatesOperands : Prop :=
  ∀ (m : Memory) (pc : Word) (b1 b2 : Byte), pc.toNat ≤ 0x000b → m.cell? pc.toNat = some 0x02 →
    m.cell? (pc.toNat + 1) = some b1 → m.cell? (pc.toNat + 2) = some b2 →
    (b1.toNat ≤ 2 ∧ 0x0e ≤ b2.toNat ∧ b2.toNat ≤ 0x0f →
      ∃ r, r.id = b1 ∧ decode m pc = .ok (.storeWord r b2)) ∧
    (¬ (b1.toNat ≤ 2 ∧ 0x0e ≤ b2.toNat ∧ b2.toNat ≤ 0x0f) →
      decode m pc = .error .paramMismatchForInstruction)

/-- Words written out from the spec's encodings (R52, R53, R51 and the decoder vectors of 95_test_vectors.md 2.1)
decode to the instructions they stand for. A sanity statement. That the byte `0x00` names PC is decision D1 of the spec
(log entry 1); how a table word is laid out as bytes is read from R56 (log entry 16). -/
def Obligations.DecodeReadsWrittenOutWords : Prop :=
  decodeTableWord 24 0x010110 = some (.loadWord .gp1 0x10) ∧
  decodeTableWord 24 0x02020f = some (.storeWord .gp2 0x0f) ∧
  decodeTableWord 24 0x030201 = some (.add .gp2 .gp1) ∧
  decodeTableWord 24 0x040002 = some (.sub .pc .gp2) ∧
  decodeTableWord 8 0xff = some .halt

/-- On an image of at least 20 cells a decode gives a well-formed Instruction or one of the decoder's three error
kinds, and never the engine's own. Rests on the derivations of R70, R79 and R84. -/
def Obligations.DecodeOnImageIsTotal : Prop :=
  ∀ (m : Memory) (pc : Word), 20 ≤ m.size →
    (∃ i, decode m pc = .ok i ∧ i.WellFormed) ∨
    decode m pc = .error .instructionOutOfBounds ∨
    decode m pc = .error .unknownInstruction ∨
    decode m pc = .error .paramMismatchForInstruction

/-- A decode depends on the opcode byte alone, and only where PC is in the band; on the two operand bytes only where the
opcode has operands and all three bytes are in the band. So memories that agree there, whatever else they hold, decode
alike. Rests on the derivations of R33 and R84. -/
def Obligations.DecodeReadsOnlyInstructionBand : Prop :=
  ∀ (m n : Memory) (pc : Word),
    (pc.toNat ≤ 0x000d → m.cell? pc.toNat = n.cell? pc.toNat) →
    (∀ op, pc.toNat ≤ 0x000b → m.cell? pc.toNat = some op →
      (op = 0x01 ∨ op = 0x02 ∨ op = 0x03 ∨ op = 0x04) →
      m.cell? (pc.toNat + 1) = n.cell? (pc.toNat + 1) ∧ m.cell? (pc.toNat + 2) = n.cell? (pc.toNat + 2)) →
    decode m pc = decode n pc

/-- Every well-formed instruction, its bytes placed anywhere in the instruction band, is read back whole. -/
def Obligations.DecodeInvertsEncode : Prop :=
  ∀ (i : Instr) (m : Memory) (pc : Word), i.WellFormed → pc.toNat + i.size ≤ 0x000e →
    (∀ k, k < i.size → m.cell? (pc.toNat + k) = (encode i)[k]?) →
    decode m pc = .ok i

/-- Where a decode succeeds, the bytes at the program counter are the encoding of what it gives, and the whole
instruction lies in the instruction band. -/
def Obligations.EncodeInvertsDecode : Prop :=
  ∀ (m : Memory) (pc : Word) (i : Instr), decode m pc = .ok i →
    pc.toNat + i.size ≤ 0x000e ∧ ∀ k, k < i.size → m.cell? (pc.toNat + k) = (encode i)[k]?

/-- There are exactly 37 well-formed Instruction values. Rests on the derivation of R63. -/
def Obligations.WellFormedInstructionsAreThirtySeven : Prop :=
  ∃ l : List Instr, l.Nodup ∧ l.length = 37 ∧ ∀ i : Instr, i ∈ l ↔ i.WellFormed

/-- The decoder block reports a decode. Where it gives an Instruction: `ok`, error code 0, the tag of its variant, its
size, and, for all but `Halt`, the operand bytes in memory as the two operand outputs. Where it fails: not `ok`, and the
code of its kind. The outputs and the codes are decisions D11 and D7 of the spec (log entries 20 and 21). -/
def Obligations.DecoderPortCarriesOperandBytes : Prop :=
  ∀ (m : Memory) (pc : Word),
    (∀ i, decode m pc = .ok i →
      (decoderPort m pc).ok = 1 ∧ (decoderPort m pc).errKind = 0 ∧
      (decoderPort m pc).tag = some (match i with
        | .loadWord _ _ => 1 | .storeWord _ _ => 2 | .add _ _ => 3 | .sub _ _ => 4 | .halt => 7) ∧
      (decoderPort m pc).size = some (if i = .halt then 1 else 3) ∧
      (i ≠ .halt →
        (∃ f, (decoderPort m pc).f1 = some f ∧ m.cell? (pc.toNat + 1) = some (f.setWidth 8)) ∧
        (∃ f, (decoderPort m pc).f2 = some f ∧ m.cell? (pc.toNat + 2) = some f))) ∧
    (∀ k, decode m pc = .error k →
      (decoderPort m pc).ok = 0 ∧
      (decoderPort m pc).errKind = (match k with
        | .instructionOutOfBounds => 1 | .unknownInstruction => 2 | .paramMismatchForInstruction => 3
        | .accessBeyondImage => 4))

/-! The step. -/

/-- In `running`, over an image, a step runs the decoded instruction and adds nothing around it: the advance and the
trace are part of `exec`. -/
def Obligations.StepRunsDecodedInstruction : Prop :=
  ∀ (s : State) (i : Instr), s.fsm = .running → 20 ≤ s.mem.size → decode s.mem s.pc = .ok i →
    i.WellFormed → step s = exec i s

/-- A decode failure stops the engine with the kind recorded, and nothing else changes. The form of the stop is
decisions D6 and D7 of the spec (log entry 8). -/
def Obligations.DecodeFailureTakesFault : Prop :=
  ∀ (s : State) (k : ErrorKind), s.fsm = .running → 20 ≤ s.mem.size → decode s.mem s.pc = .error k →
    ∃ t, step s = .next t ∧ t.fsm = .faulted ∧ t.err = some k ∧
      t.pc = s.pc ∧ t.gp1 = s.gp1 ∧ t.gp2 = s.gp2 ∧ t.trace = s.trace ∧
      t.mem.size = s.mem.size ∧ ∀ a, t.mem.cell? a = s.mem.cell? a

/-- A step in `halted` or `faulted` changes nothing. Rests on decision D10 of the spec (log entry 12). -/
def Obligations.TerminalStatesAbsorbSteps : Prop :=
  ∀ s : State, s.fsm ≠ .running → step s = .next s

/-! The instructions. -/

/-- `LoadWord` into GP1 or GP2 (R105), wherever both cells exist, which they do for a well-formed `LoadWord` over an
image unless `addr = 0x13` and the image has 20 cells. That the advance wraps is decision D3 of the spec (log entry 3),
and that a load at `0x13` reads cell `0x14` where it exists is decision D5 (log entry 7). PC as the destination is
`LoadWordToPcJumps`, the missing cell `LoadWordBeyondImageFaults`. -/
def Obligations.LoadWordReadsLittleEndianWord : Prop :=
  (∀ (s : State) (r : Reg) (addr lo hi : Byte), r ≠ .pc →
    s.mem.cell? (cellAddress addr) = some lo → s.mem.cell? (cellAddress addr + 1) = some hi →
    ∃ t, exec (.loadWord r addr) s = .next t ∧
      (t.readReg r).toNat = lo.toNat + 256 * hi.toNat ∧
      t.pc.toNat = (s.pc.toNat + 3) % 65536 ∧
      (∀ q, q ≠ r → q ≠ .pc → t.readReg q = s.readReg q) ∧
      t.mem.size = s.mem.size ∧ (∀ a, t.mem.cell? a = s.mem.cell? a) ∧
      t.fsm = s.fsm ∧ t.err = s.err) ∧
  ∀ (m : Memory) (r : Reg) (addr : Byte), (Instr.loadWord r addr).WellFormed → 20 ≤ m.size →
    (addr ≠ 0x13 ∨ m.size ≠ 20) →
    (m.cell? (cellAddress addr)).isSome ∧ (m.cell? (cellAddress addr + 1)).isSome

/-- `LoadWord` into PC continues at the word read plus 3. Rests on decisions D2 and D3 of the spec (log entries 2 and
3). -/
def Obligations.LoadWordToPcJumps : Prop :=
  ∀ (s : State) (addr lo hi : Byte),
    s.mem.cell? (cellAddress addr) = some lo → s.mem.cell? (cellAddress addr + 1) = some hi →
    ∃ t, exec (.loadWord .pc addr) s = .next t ∧
      t.pc.toNat = (lo.toNat + 256 * hi.toNat + 3) % 65536 ∧
      t.gp1 = s.gp1 ∧ t.gp2 = s.gp2 ∧
      t.mem.size = s.mem.size ∧ (∀ a, t.mem.cell? a = s.mem.cell? a) ∧
      t.fsm = s.fsm ∧ t.err = s.err

/-- A load of a cell that does not exist faults with `AccessBeyondImage` before anything changes; for a well-formed
`LoadWord` over an image that is address `0x13` and 20 cells. Rests on decision D5 of the spec (log entry 7). -/
def Obligations.LoadWordBeyondImageFaults : Prop :=
  ∀ (s : State) (r : Reg) (addr : Byte), s.mem.size ≤ cellAddress addr + 1 →
    (∃ t, exec (.loadWord r addr) s = .next t ∧ t.fsm = .faulted ∧ t.err = some .accessBeyondImage ∧
      t.pc = s.pc ∧ t.gp1 = s.gp1 ∧ t.gp2 = s.gp2 ∧ t.trace = s.trace ∧
      t.mem.size = s.mem.size ∧ ∀ a, t.mem.cell? a = s.mem.cell? a) ∧
    ((Instr.loadWord r addr).WellFormed → 20 ≤ s.mem.size → addr = 0x13 ∧ s.mem.size = 20)

/-- `StoreWord` of any register, PC included (R106), wherever both cells exist, which they do for a well-formed
`StoreWord` over an image. Every cell but the two keeps its byte. That a store at `0x0f` writes cell `0x10` is decision
D13 of the spec (log entry 9; what follows from it is `StoreAtOutputBandEndReachesInputBand`), and that the advance
wraps is decision D3 (log entry 3). -/
def Obligations.StoreWordWritesLittleEndianBytes : Prop :=
  ∀ (s : State) (r : Reg) (addr : Byte),
    (cellAddress addr + 1 < s.mem.size →
      ∃ t, exec (.storeWord r addr) s = .next t ∧
        t.mem.cell? (cellAddress addr) = some (BitVec.ofNat 8 ((s.readReg r).toNat % 256)) ∧
        t.mem.cell? (cellAddress addr + 1) = some (BitVec.ofNat 8 ((s.readReg r).toNat / 256)) ∧
        (∀ a, a ≠ cellAddress addr → a ≠ cellAddress addr + 1 → t.mem.cell? a = s.mem.cell? a) ∧
        t.mem.size = s.mem.size ∧
        t.pc.toNat = (s.pc.toNat + 3) % 65536 ∧ t.gp1 = s.gp1 ∧ t.gp2 = s.gp2 ∧
        t.fsm = s.fsm ∧ t.err = s.err) ∧
    ((Instr.storeWord r addr).WellFormed → 20 ≤ s.mem.size → cellAddress addr + 1 < s.mem.size)

/-- A `StoreWord` to a cell that does not exist, which no decoded one over an image is, stops with the model's own
fault: the spec gives it no meaning (log entry 14). -/
def Obligations.StoreWordBeyondImageStops : Prop :=
  ∀ (s : State) (r : Reg) (addr : Byte), s.mem.size ≤ cellAddress addr + 1 →
    exec (.storeWord r addr) s = .fault .storeBeyondImage

/-- `Add` into GP1 or GP2 (R115), the right operand any register, PC and the destination itself included. That the
advance wraps is decision D3 of the spec (log entry 3). PC as the destination is `AddToPcJumps`. -/
def Obligations.AddWritesWrappedSum : Prop :=
  ∀ (s : State) (a b : Reg), a ≠ .pc →
    ∃ t, exec (.add a b) s = .next t ∧
      (t.readReg a).toNat = ((s.readReg a).toNat + (s.readReg b).toNat) % 65536 ∧
      t.pc.toNat = (s.pc.toNat + 3) % 65536 ∧
      (∀ q, q ≠ a → q ≠ .pc → t.readReg q = s.readReg q) ∧
      t.mem.size = s.mem.size ∧ (∀ x, t.mem.cell? x = s.mem.cell? x) ∧
      t.fsm = s.fsm ∧ t.err = s.err

/-- `Add` into PC continues at the sum plus 3. Rests on decisions D2 and D3 of the spec (log entries 2 and 3). -/
def Obligations.AddToPcJumps : Prop :=
  ∀ (s : State) (b : Reg),
    ∃ t, exec (.add .pc b) s = .next t ∧
      t.pc.toNat = (s.pc.toNat + (s.readReg b).toNat + 3) % 65536 ∧
      t.gp1 = s.gp1 ∧ t.gp2 = s.gp2 ∧
      t.mem.size = s.mem.size ∧ (∀ x, t.mem.cell? x = s.mem.cell? x) ∧
      t.fsm = s.fsm ∧ t.err = s.err

/-- `Sub` into GP1 or GP2 (R116), the right operand any register, PC and the destination itself included. That the
advance wraps is decision D3 of the spec (log entry 3). PC as the destination is `SubToPcJumps`. -/
def Obligations.SubWritesWrappedDifference : Prop :=
  ∀ (s : State) (a b : Reg), a ≠ .pc →
    ∃ t, exec (.sub a b) s = .next t ∧
      (t.readReg a).toNat = ((s.readReg a).toNat + (65536 - (s.readReg b).toNat)) % 65536 ∧
      t.pc.toNat = (s.pc.toNat + 3) % 65536 ∧
      (∀ q, q ≠ a → q ≠ .pc → t.readReg q = s.readReg q) ∧
      t.mem.size = s.mem.size ∧ (∀ x, t.mem.cell? x = s.mem.cell? x) ∧
      t.fsm = s.fsm ∧ t.err = s.err

/-- `Sub` into PC continues at the difference plus 3, and `Sub(PC, PC)` at address 3. Rests on decisions D2 and D3 of
the spec (log entries 2 and 3). -/
def Obligations.SubToPcJumps : Prop :=
  ∀ (s : State) (b : Reg),
    ∃ t, exec (.sub .pc b) s = .next t ∧
      t.pc.toNat = (s.pc.toNat + (65536 - (s.readReg b).toNat) + 3) % 65536 ∧
      (b = .pc → t.pc = 0x0003) ∧
      t.gp1 = s.gp1 ∧ t.gp2 = s.gp2 ∧
      t.mem.size = s.mem.size ∧ (∀ x, t.mem.cell? x = s.mem.cell? x) ∧
      t.fsm = s.fsm ∧ t.err = s.err

/-- `Halt` stops the engine where it stands and is recorded as executed. That `Halt` is in the trace is decision D8 of
the spec (log entry 10). -/
def Obligations.HaltStopsEngineAtItsAddress : Prop :=
  ∀ s : State,
    ∃ t, exec .halt s = .next t ∧ t.fsm = .halted ∧ t.trace = s.trace ++ [.halt] ∧
      t.pc = s.pc ∧ t.gp1 = s.gp1 ∧ t.gp2 = s.gp2 ∧ t.err = s.err ∧
      t.mem.size = s.mem.size ∧ ∀ a, t.mem.cell? a = s.mem.cell? a

/-- `Sub` undoes `Add`: run one after the other on the same two registers, they leave both as they were. One law of
the derivation R117, on the instructions themselves. -/
def Obligations.SubUndoesAdd : Prop :=
  ∀ (s : State) (a b : Reg), a ≠ b → a ≠ .pc → b ≠ .pc →
    ∃ t u, exec (.add a b) s = .next t ∧ exec (.sub a b) t = .next u ∧
      u.readReg a = s.readReg a ∧ u.readReg b = s.readReg b

/-- A store followed by a load at the same address gives the loaded register the value stored: of the accesses, and of
the two meanings on Instruction values built by hand (no decodable pair shares an address: C7 of 90_conflicts.md). Rests
on the derivation of R109. -/
def Obligations.StoreThenLoadReturnsValue : Prop :=
  (∀ (m m' : Memory) (a : Nat) (v : Word), m.writeWord a v = some m' → m'.readWord a = some v) ∧
  ∀ (s : State) (r q : Reg) (addr : Byte), q ≠ .pc → cellAddress addr + 1 < s.mem.size →
    ∃ t u, exec (.storeWord r addr) s = .next t ∧ exec (.loadWord q addr) t = .next u ∧
      u.readReg q = s.readReg r

/-- A store at `0x0f` leaves `mem[0x0e]`, so that `result()` mixes the old low byte with the stored low byte; and a
later load at `0x10` reads the stored high byte as its low byte. Rests on decision D13 of the spec (log entry 9). -/
def Obligations.StoreAtOutputBandEndReachesInputBand : Prop :=
  ∀ (s : State) (r q : Reg) (b0e b11 : Byte), q ≠ .pc →
    s.mem.cell? 0x0e = some b0e → s.mem.cell? 0x11 = some b11 →
    ∃ t u v, exec (.storeWord r 0x0f) s = .next t ∧ t.result = some v ∧
      v.toNat = b0e.toNat + 256 * ((s.readReg r).toNat % 256) ∧
      exec (.loadWord q 0x10) t = .next u ∧
      (u.readReg q).toNat = (s.readReg r).toNat / 256 + 256 * b11.toNat

/-- A store at `0x0e` makes the stored value the machine's result, which every later instruction but a store keeps. The
result is the observation of R100. -/
def Obligations.StoreMakesResult : Prop :=
  (∀ (s : State) (r : Reg), 20 ≤ s.mem.size →
    ∃ t, exec (.storeWord r 0x0e) s = .next t ∧ t.result = some (s.readReg r)) ∧
  ∀ (s t : State) (i : Instr), (∀ r addr, i ≠ .storeWord r addr) → exec i s = .next t → t.result = s.result

/-! What holds of every step. -/

/-- Over an image of at least 20 cells every step answers a next state: no fault of the model and no refusal. That a
load of a missing cell, a decode failure and a terminal state answer one too is decisions D5, D6 and D10 of the spec (log
entries 7, 8 and 12). -/
def Obligations.StepAnswersOnEveryImage : Prop :=
  ∀ s : State, 20 ≤ s.mem.size → ∃ t, step s = .next t

/-- A step that enters `faulted` changes nothing but `fsm` and `err`, and its cause is the decoder's error at PC, or a
decoded `LoadWord` at `0x13` in an image of 20 cells. Rests on decisions D5 to D7 of the spec (log entries 7 and 8). -/
def Obligations.FaultEntryIsPrecise : Prop :=
  ∀ s t : State, s.fsm = .running → step s = .next t → t.fsm = .faulted →
    ∃ k, t.err = some k ∧ t.pc = s.pc ∧ t.gp1 = s.gp1 ∧ t.gp2 = s.gp2 ∧ t.mem = s.mem ∧ t.trace = s.trace ∧
      (decode s.mem s.pc = .error k ∨
        (k = .accessBeyondImage ∧ s.mem.size = 20 ∧ ∃ r, decode s.mem s.pc = .ok (.loadWord r 0x13)))

/-- The step that enters `halted` is the one that executes a `Halt`, the only instruction that changes `fsm` (R127). -/
def Obligations.OnlyHaltEntersHalted : Prop :=
  ∀ s t : State, s.fsm = .running → step s = .next t →
    (t.fsm = .halted ↔ decode s.mem s.pc = .ok .halt)

/-- Every completed instruction that is not `Halt` and does not name PC as its destination advances PC by 3, modulo
65536 (decision D3 of the spec, log entry 3). -/
def Obligations.StepWithoutPcDestinationAdvancesByThree : Prop :=
  ∀ (s t : State) (i : Instr), s.fsm = .running → step s = .next t → t.fsm = .running →
    decode s.mem s.pc = .ok i → i.destination ≠ some .pc → t.pc.toNat = (s.pc.toNat + 3) % 65536

/-- A step writes no register but PC and the decoded instruction's destination. -/
def Obligations.StepWritesOnlyPcAndDestination : Prop :=
  ∀ (s t : State) (q : Reg), step s = .next t → q ≠ .pc →
    (∀ i, decode s.mem s.pc = .ok i → i.destination ≠ some q) → t.readReg q = s.readReg q

/-- A step writes no cell but `0x0e` to `0x10`, and only when it executes a `StoreWord`. Rests on the derivation of
R34. -/
def Obligations.StepWritesOnlyCellsReachedByStores : Prop :=
  ∀ s t : State, step s = .next t →
    t.mem.size = s.mem.size ∧
    (∀ a, a < 0x0e ∨ 0x10 < a → t.mem.cell? a = s.mem.cell? a) ∧
    ((∀ r addr, decode s.mem s.pc ≠ .ok (.storeWord r addr)) → ∀ a, t.mem.cell? a = s.mem.cell? a)

/-- An instruction that executes appends exactly itself to the trace, and only a load of a missing cell, which faults,
appends nothing; a step that executes an instruction appends the decoded one, and a step that faults, or does nothing, appends nothing. Decision
D8 of the spec (log entry 10). -/
def Obligations.TraceRecordsExecutedInstructions : Prop :=
  (∀ (i : Instr) (s t : State), exec i s = .next t →
    t.trace = s.trace ++ [i] ∨
    ((∃ r addr, i = .loadWord r addr ∧ s.mem.size ≤ cellAddress addr + 1) ∧
      t.trace = s.trace ∧ t.fsm = .faulted ∧ t.err = some .accessBeyondImage)) ∧
  ∀ s t : State, step s = .next t →
    (s.fsm = .running → t.fsm ≠ .faulted →
      ∃ i, decode s.mem s.pc = .ok i ∧ t.trace = s.trace ++ [i]) ∧
    (s.fsm ≠ .running ∨ t.fsm = .faulted → t.trace = s.trace)

/-- The machine's invariant is kept by every step: the image's size and canonical form, an error recorded exactly in
`Faulted`, well-formed Instructions in the trace. The canonical form is the model's own (log entry 6); `Faulted` and
`err` are decisions D6 and D7 of the spec (log entry 8). -/
def Obligations.StepKeepsMachineInv : Prop :=
  ∀ s t : State, MachineInv s → step s = .next t → MachineInv t

/-- Every step keeps that a halted engine stands at its `Halt`, the last and only one in its trace. That `Halt` is in
the trace is decision D8 of the spec (log entry 10). -/
def Obligations.StepKeepsHaltInv : Prop :=
  ∀ s t : State, HaltInv s → step s = .next t → HaltInv t

/-- Every step keeps that a faulted engine stands at the address of the failing cycle, with the kind that cycle
raised. Rests on decisions D5 to D7 of the spec (log entries 7 and 8). -/
def Obligations.StepKeepsFaultInv : Prop :=
  ∀ s t : State, FaultInv s → step s = .next t → FaultInv t

/-! Runs. -/

/-- Self-modifying code is impossible: however far the machine runs, every program counter decodes as it did at the
start. Rests on the derivation of R43. -/
def Obligations.NoRunChangesWhatDecodes : Prop :=
  ∀ (s t : State) (pc : Word), StepsTo s t → decode t.mem pc = decode s.mem pc

/-- Cells at `0x15` and above are inert: two machines that differ there only take the same steps, still differ there
only, and those cells keep their bytes. Rests on the derivations of R6 and R34. -/
def Obligations.CellsAboveTheTwentyFirstAreInert : Prop :=
  ∀ s t : State, 20 ≤ s.mem.size → 20 ≤ t.mem.size → AgreeOn (fun a => a < 0x15) s t →
    ∃ s' t', step s = .next s' ∧ step t = .next t' ∧ AgreeOn (fun a => a < 0x15) s' t' ∧
      (∀ a, 0x15 ≤ a → s'.mem.cell? a = s.mem.cell? a) ∧ (∀ a, 0x15 ≤ a → t'.mem.cell? a = t.mem.cell? a)

/-- No instruction reads the output band: two machines that differ only in its two cells take the same steps and still
differ at most there. Rests on the derivation of R34. -/
def Obligations.OutputBandIsNeverRead : Prop :=
  ∀ s t : State, 20 ≤ s.mem.size → 20 ≤ t.mem.size → AgreeOn (fun a => a < 0x0e ∨ 0x0f < a) s t →
    ∃ s' t', step s = .next s' ∧ step t = .next t' ∧ AgreeOn (fun a => a < 0x0e ∨ 0x0f < a) s' t'

/-- `run()` is the iteration of `step()`: it returns in exactly the terminal states that steps lead to.
Rests on decision D9 of the spec (log entry 11). -/
def Obligations.RunIsIterationOfStep : Prop :=
  ∀ s t : State, RunReturns s t ↔ StepsTo s t ∧ t.fsm ≠ .running

/-- What a run comes to is fixed by the registers, the control state, the instruction band and cells `0x10` to `0x14`: a
machine that differs from one whose run returns only in its output band and in cells at `0x15` and above returns too, in
exactly one state, and the two ends differ there at most. Rests on the derivations of R34 and R102. -/
def Obligations.RunEndIsFixedByProgramAndInput : Prop :=
  ∀ s t s' : State, 20 ≤ s.mem.size → 20 ≤ t.mem.size →
    AgreeOn (fun a => a ≤ 0x0d ∨ (0x10 ≤ a ∧ a ≤ 0x14)) s t → RunReturns s s' →
    ∃ t', RunReturns t t' ∧ AgreeOn (fun a => a ≤ 0x0d ∨ (0x10 ≤ a ∧ a ≤ 0x14)) s' t' ∧
      ∀ u, RunReturns t u → u = t'

/-- A run begun in `running` that completes leaves PC at the address of the `Halt` it executed, the last in its trace,
with no error newly recorded. That `Halt` is in the trace is decision D8 of the spec (log entry 10). -/
def Obligations.CompletedRunEndsAtItsHalt : Prop :=
  ∀ s t : State, s.fsm = .running → RunReturns s t → Completed t →
    decode t.mem t.pc = .ok .halt ∧ t.trace.getLast? = some .halt ∧ t.err = s.err

/-- Code that never writes PC ends within five cycles: from PC = 0, with no instruction that names PC as its
destination at the four addresses a straight run passes, five steps leave `running`. Rests on the derivation of R97. -/
def Obligations.RunsWithoutPcWritesEndWithinFiveCycles : Prop :=
  ∀ s : State, s.fsm = .running → s.pc = 0x0000 → 20 ≤ s.mem.size →
    (∀ p ∈ [(0x0000 : Word), 0x0003, 0x0006, 0x0009], ∀ i, decode s.mem p = .ok i → i.destination ≠ some .pc) →
    ∃ t, Host.Core.run Sys2Proof.core 5 s = .next t ∧ t.fsm ≠ .running ∧ RunReturns s t

/-- The smallest endless run: at a `Sub(PC, R)` with `x[R] = 3` the engine stays at its own address for ever, and
`run()` never returns. Rests on decision D2 of the spec (log entry 2) and, at addresses 0 to 2, where the subtraction
leaves `0xfffd` to `0xffff`, on the wrap of the advance, decision D3 (log entry 3). -/
def Obligations.SubtractingThreeFromPcNeverEnds : Prop :=
  ∀ (s : State) (r : Reg), s.fsm = .running → 20 ≤ s.mem.size → r ≠ .pc →
    decode s.mem s.pc = .ok (.sub .pc r) → s.readReg r = 0x0003 →
    (∀ k, ∃ t, Host.Core.run Sys2Proof.core k s = .next t ∧ t.fsm = .running ∧ t.pc = s.pc) ∧
    ∀ t, ¬ RunReturns s t

/-! The memory's canonical form. -/

/-- Memories in canonical form with the same cells are the same data. The form is the model's own (log entry 6). -/
def Obligations.EqualCellsMeanEqualMemories : Prop :=
  ∀ m n : Memory, m.wf → n.wf → m.size = n.size → (∀ a, m.cell? a = n.cell? a) → m = n
end

