-- ==== Sys2Proof/Laws/Decode.lean ====
section
/-! SUPPORT. What each part of the decoder can answer; later proofs cite these and do not unfold the decoder. -/

namespace Sys2Proof

open Sys2Proof.Machine (Memory)

theorem Instr.wellFormed_loadWord_iff (r : Reg) (addr : Byte) :
    (Instr.loadWord r addr).WellFormed ↔ 0x10 ≤ addr.toNat ∧ addr.toNat ≤ 0x13 := by
  simp [Instr.WellFormed, Instr.wellFormed, Config.inFirst, Config.inLast]

theorem Instr.wellFormed_storeWord_iff (r : Reg) (addr : Byte) :
    (Instr.storeWord r addr).WellFormed ↔ 0x0e ≤ addr.toNat ∧ addr.toNat ≤ 0x0f := by
  simp [Instr.WellFormed, Instr.wellFormed, Config.outFirst, Config.outLast]

/-- A byte names a register exactly when it is that register's identifier. -/
theorem Reg.ofId?_eq_some_iff (b : Byte) (r : Reg) : Reg.ofId? b = some r ↔ b = r.id := by
  unfold Reg.ofId?
  constructor
  · intro h
    split at h
    · cases h; assumption
    · split at h
      · cases h; assumption
      · split at h
        · cases h; assumption
        · cases h
  · rintro rfl; cases r <;> decide

/-- The opcode map read backwards. -/
theorem OpClass.ofOpcode?_eq_some_iff (op : Byte) (c : OpClass) :
    OpClass.ofOpcode? op = some c ↔
      op = (match c with | .load => 0x01 | .store => 0x02 | .add => 0x03 | .sub => 0x04 | .halt => 0xff) := by
  constructor
  · intro h
    unfold OpClass.ofOpcode? at h
    repeat' split at h
    all_goals first | (cases h; assumption) | cases h
  · rintro rfl; cases c <;> decide

theorem fetchByte_eq_ok_iff (m : Memory) (a : Nat) (b : Byte) : fetchByte m a = .ok b ↔ m.cell? a = some b := by
  unfold fetchByte; split <;> simp_all

/-- All that the opcode parser can accept. -/
theorem parseOpcode_eq_ok_iff (m : Memory) (pc : Word) (c : OpClass) :
    parseOpcode m pc = .ok c ↔
      pc.toNat ≤ Config.instrLast ∧ ∃ op, m.cell? pc.toNat = some op ∧ OpClass.ofOpcode? op = some c := by
  unfold parseOpcode
  split
  · constructor
    · intro h; cases h
    · rintro ⟨h, -⟩; omega
  · rename_i hle
    rw [not_lt] at hle
    cases hf : fetchByte m pc.toNat with
    | error k =>
      have : ∀ b, m.cell? pc.toNat ≠ some b := fun b hb => by
        rw [← fetchByte_eq_ok_iff, hf] at hb; cases hb
      simp [this]
    | ok op =>
      rw [fetchByte_eq_ok_iff] at hf
      simp only [hf, hle, Option.some.injEq, true_and, exists_eq_left']
      cases OpClass.ofOpcode? op <;> simp

/-- All that the operand bound can accept. -/
theorem operandBytes_eq_ok_iff (m : Memory) (pc : Word) (b1 b2 : Byte) :
    operandBytes m pc = .ok (b1, b2) ↔
      pc.toNat + 2 ≤ Config.instrLast ∧ m.cell? (pc.toNat + 1) = some b1 ∧ m.cell? (pc.toNat + 2) = some b2 := by
  unfold operandBytes
  split
  · constructor
    · intro h; cases h
    · rintro ⟨h, -⟩; omega
  · rename_i hle
    rw [not_lt] at hle
    simp only [hle, true_and, ← fetchByte_eq_ok_iff]
    cases fetchByte m (pc.toNat + 1) <;> cases fetchByte m (pc.toNat + 2) <;> simp

theorem checkBand_eq_some_iff (i j : Instr) : checkBand i = some j ↔ i.WellFormed ∧ j = i := by
  unfold checkBand
  split
  · rename_i h; simp [h, eq_comm]
  · rename_i h; simp [h]

/-- Every decode that succeeds is a `Halt` byte, or an opcode with operand bytes that build the Instruction. -/
theorem decode_ok_cases {m : Memory} {pc : Word} {i : Instr} (h : decode m pc = .ok i) :
    (parseOpcode m pc = .ok .halt ∧ i = .halt) ∨
    ∃ c b1 b2, parseOpcode m pc = .ok c ∧ c ≠ .halt ∧ operandBytes m pc = .ok (b1, b2) ∧
      buildInstr c b1 b2 = some i := by
  unfold decode at h
  split at h
  · cases h
  · rename_i hp; exact .inl ⟨hp, (Except.ok.inj h).symm⟩
  · rename_i c hc hp
    refine .inr ⟨c, ?_⟩
    unfold decodeOperands at h
    split at h
    · cases h
    · rename_i b1 b2 hb
      split at h
      · rename_i j hj
        exact ⟨b1, b2, hp, fun hn => hc hn, hb, hj.trans (congrArg some (Except.ok.inj h))⟩
      · cases h

end Sys2Proof
end

