-- ==== Sys2Proof/Laws/HostInterface.lean ====
section
/-! SUPPORT. What the decoder block puts out, once for each way a decode can end. -/

namespace Sys2Proof.Machine

variable {m : Memory} {pc : Word}

theorem decoderPort_of_ok {i : Instr} (h : decode m pc = .ok i) :
    decoderPort m pc =
      { ok := 1, errKind := errCode none, tag := some (portFields i).1, f1 := (portFields i).2.1,
        f2 := (portFields i).2.2, size := some (BitVec.ofNat 2 i.size) } := by
  rw [decoderPort, h]

theorem decoderPort_of_error {k : ErrorKind} (h : decode m pc = .error k) :
    decoderPort m pc =
      { ok := 0, errKind := errCode (some k), tag := none, f1 := none, f2 := none, size := none } := by
  rw [decoderPort, h]

end Sys2Proof.Machine
end

