-- ==== Sys2Proof/Laws/Memory.lean ====
section
/-! SUPPORT. The laws of the memory: read after write, what a write leaves alone, and that every operation keeps the
canonical form and the image's size. -/

namespace Sys2Proof.Machine

theorem lookupCell_insertCell (cs : List Host.Cell) (a x : Nat) (v : Byte) :
    lookupCell (insertCell cs a v) x = if x = a then v else lookupCell cs x := by
  induction cs with
  | nil => simp [insertCell, lookupCell]
  | cons c rest ih =>
    obtain ⟨k, b⟩ := c
    simp only [insertCell]
    split
    · simp [lookupCell]
    · split
      · subst a; simp only [lookupCell]; split <;> rfl
      · rename_i hk
        simp only [lookupCell, ih]
        split
        · rename_i hx; simp [hx, Ne.symm hk]
        · rfl

theorem lookupCell_filter (cs : List Host.Cell) (a x : Nat) :
    lookupCell (cs.filter (fun c => c.1 != a)) x = if x = a then unlistedByte else lookupCell cs x := by
  induction cs with
  | nil => simp [lookupCell]
  | cons c rest ih =>
    obtain ⟨k, b⟩ := c
    by_cases hk : k = a
    · subst hk; simp only [List.filter_cons, bne_self_eq_false, Bool.false_eq_true, if_false, ih, lookupCell]
      split <;> simp_all
    · simp only [List.filter_cons, bne_iff_ne, ne_eq, hk, not_false_eq_true, if_true, lookupCell, ih]
      by_cases hx : x = a
      · subst hx; simp [Ne.symm hk]
      · simp [hx]

theorem lookupCell_updateCells (cs : List Host.Cell) (a x : Nat) (v : Byte) :
    lookupCell (updateCells cs a v) x = if x = a then v else lookupCell cs x := by
  unfold updateCells
  split
  · subst v; exact lookupCell_filter cs a x
  · exact lookupCell_insertCell cs a x v

@[simp] theorem Memory.setByte_size (m : Memory) (a : Nat) (v : Byte) : (m.setByte a v).size = m.size := by
  unfold Memory.setByte; split <;> rfl

theorem Memory.cell?_isSome_iff (m : Memory) (a : Nat) : (m.cell? a).isSome ↔ a < m.size := by
  unfold Memory.cell?; split <;> simp_all

theorem Memory.cell?_eq_none_iff (m : Memory) (a : Nat) : m.cell? a = none ↔ m.size ≤ a := by
  unfold Memory.cell?; split <;> simp_all

/-- Read after write: the cell written holds the byte, every other cell what it held. -/
theorem Memory.cell?_setByte (m : Memory) (a x : Nat) (v : Byte) :
    (m.setByte a v).cell? x = if x = a ∧ a < m.size then some v else m.cell? x := by
  unfold Memory.setByte
  by_cases ha : a < m.size
  · simp only [ha, if_true, and_true, Memory.cell?, lookupCell_updateCells]
    by_cases hx : x = a
    · simp [hx, ha]
    · simp [hx]
  · simp [ha]

@[simp] theorem Memory.setBytes_size (m : Memory) (a : Nat) (bs : List Byte) : (m.setBytes a bs).size = m.size := by
  induction bs generalizing m a with
  | nil => rfl
  | cons b bs ih => simp [Memory.setBytes, ih]

/-- All that a two-cell read can answer. -/
theorem Memory.readWord_eq_some_iff (m : Memory) (a : Nat) (v : Word) :
    m.readWord a = some v ↔
      ∃ lo hi, m.cell? a = some lo ∧ m.cell? (a + 1) = some hi ∧ v = wordOfBytes lo hi := by
  unfold Memory.readWord
  constructor
  · intro h
    split at h
    · rename_i lo hi h1 h2; exact ⟨lo, hi, h1, h2, (Option.some.inj h).symm⟩
    · cases h
  · rintro ⟨lo, hi, h1, h2, rfl⟩; rw [h1, h2]

theorem Memory.readWord_eq_none_iff (m : Memory) (a : Nat) : m.readWord a = none ↔ m.size ≤ a + 1 := by
  rw [← Memory.cell?_eq_none_iff]
  unfold Memory.readWord
  cases h2 : m.cell? (a + 1) with
  | none => cases m.cell? a <;> simp
  | some hi =>
    have hlt : a + 1 < m.size := (Memory.cell?_isSome_iff m (a + 1)).1 (by simp [h2])
    have h1 : (m.cell? a).isSome := (Memory.cell?_isSome_iff m a).2 (by omega)
    obtain ⟨lo, hlo⟩ := Option.isSome_iff_exists.1 h1
    simp [hlo]

/-- All that a two-cell write can answer. -/
theorem Memory.writeWord_eq_some_iff (m m' : Memory) (a : Nat) (v : Word) :
    m.writeWord a v = some m' ↔
      a + 1 < m.size ∧ m' = (m.setByte a (lowByte v)).setByte (a + 1) (highByte v) := by
  unfold Memory.writeWord
  split
  · rename_i h; simp only [h, true_and, Option.some.injEq]; exact eq_comm
  · rename_i h; simp [h]

theorem Memory.writeWord_eq_none_iff (m : Memory) (a : Nat) (v : Word) :
    m.writeWord a v = none ↔ m.size ≤ a + 1 := by
  unfold Memory.writeWord; split <;> simp_all

theorem toNat_wordOfBytes (lo hi : Byte) : (wordOfBytes lo hi).toNat = lo.toNat + 256 * hi.toNat := by
  have := lo.isLt; have := hi.isLt
  simp only [wordOfBytes, BitVec.toNat_ofNat]; omega

theorem toNat_lowByte (v : Word) : (lowByte v).toNat = v.toNat % 256 := by
  simp [lowByte]

theorem toNat_highByte (v : Word) : (highByte v).toNat = v.toNat / 256 := by
  have := v.isLt
  simp only [highByte, BitVec.toNat_ofNat]; omega

/-! The canonical form. -/

theorem mem_insertCell {cs : List Host.Cell} {a : Nat} {v : Byte} {c : Host.Cell} (h : c ∈ insertCell cs a v) :
    c = (a, v) ∨ c ∈ cs := by
  induction cs with
  | nil => exact Or.inl (by simpa [insertCell] using h)
  | cons d rest ih =>
    obtain ⟨k, b⟩ := d
    simp only [insertCell] at h
    split at h
    · simpa using h
    · split at h
      · simp only [List.mem_cons] at h ⊢; tauto
      · simp only [List.mem_cons] at h ⊢
        rcases h with h | h
        · exact .inr (.inl h)
        · rcases ih h with h | h <;> tauto

theorem insertCell_sorted {cs : List Host.Cell} (a : Nat) (v : Byte)
    (h : cs.Pairwise (fun c d => c.1 < d.1)) : (insertCell cs a v).Pairwise (fun c d => c.1 < d.1) := by
  induction cs with
  | nil => simp [insertCell]
  | cons d rest ih =>
    obtain ⟨k, b⟩ := d
    obtain ⟨hd, hr⟩ := List.pairwise_cons.1 h
    simp only [insertCell]
    split
    · rename_i hlt
      refine List.pairwise_cons.2 ⟨fun c hc => ?_, h⟩
      rcases List.mem_cons.1 hc with rfl | hc
      · exact hlt
      · exact lt_trans hlt (hd c hc)
    · split
      · subst a; exact List.pairwise_cons.2 ⟨hd, hr⟩
      · refine List.pairwise_cons.2 ⟨fun c hc => ?_, ih hr⟩
        rcases mem_insertCell hc with rfl | hc
        · show k < a
          omega
        · exact hd c hc

theorem Memory.setByte_wf {m : Memory} (h : m.wf) (a : Nat) (v : Byte) : (m.setByte a v).wf := by
  obtain ⟨hs, hc⟩ := h
  unfold Memory.setByte
  split
  · rename_i ha
    unfold Memory.wf updateCells
    by_cases hv : v = unlistedByte
    · simp only [hv, if_true]
      exact ⟨hs.filter _, fun c hm => hc c (List.mem_of_mem_filter hm)⟩
    · simp only [hv, if_false]
      refine ⟨insertCell_sorted a v hs, fun c hm => ?_⟩
      rcases mem_insertCell hm with rfl | hm
      · exact ⟨ha, hv⟩
      · exact hc c hm
  · exact ⟨hs, hc⟩

theorem Memory.setBytes_wf {m : Memory} (h : m.wf) (a : Nat) (bs : List Byte) : (m.setBytes a bs).wf := by
  induction bs generalizing m a with
  | nil => exact h
  | cons b bs ih => exact ih (Memory.setByte_wf h a b) (a + 1)

theorem Memory.writeWord_wf {m m' : Memory} (h : m.wf) {a : Nat} {v : Word} (hw : m.writeWord a v = some m') :
    m'.wf := by
  obtain ⟨-, rfl⟩ := (Memory.writeWord_eq_some_iff m m' a v).1 hw
  exact Memory.setByte_wf (Memory.setByte_wf h _ _) _ _

theorem mem_cellsFrom {bs : List Byte} {a : Nat} {c : Host.Cell} (h : c ∈ cellsFrom a bs) :
    a ≤ c.1 ∧ c.1 < a + bs.length ∧ c.2 ≠ unlistedByte := by
  induction bs generalizing a with
  | nil => simp [cellsFrom] at h
  | cons b bs ih =>
    simp only [cellsFrom] at h
    simp only [List.length_cons]
    split at h
    · have := ih h; exact ⟨by omega, by omega, this.2.2⟩
    · rename_i hb
      rcases List.mem_cons.1 h with rfl | h
      · exact ⟨Nat.le_refl _, by omega, hb⟩
      · have := ih h; exact ⟨by omega, by omega, this.2.2⟩

theorem cellsFrom_sorted (bs : List Byte) (a : Nat) : (cellsFrom a bs).Pairwise (fun c d => c.1 < d.1) := by
  induction bs generalizing a with
  | nil => simp [cellsFrom]
  | cons b bs ih =>
    simp only [cellsFrom]
    split
    · exact ih _
    · exact List.pairwise_cons.2 ⟨fun c hc => (mem_cellsFrom hc).1, ih _⟩

theorem Memory.ofImage_wf (image : List Byte) : (Memory.ofImage image).wf :=
  ⟨cellsFrom_sorted image 0, fun c hc => by
    have := mem_cellsFrom hc
    exact ⟨by simpa [Memory.ofImage] using this.2.1, this.2.2⟩⟩

theorem State.reset_mem_wf : State.reset.mem.wf := by decide

end Sys2Proof.Machine
end

