-- ==== Sys2Proof/Laws/State.lean ====
section
/-! SUPPORT. One lemma per field per update of the state, so that no proof unfolds a record update. -/

namespace Sys2Proof.Machine

variable (s : State) (v : Word) (k : ErrorKind) (i : Instr) (n : Nat)

@[simp] theorem State.readReg_pc : s.readReg .pc = s.pc := rfl
@[simp] theorem State.readReg_gp1 : s.readReg .gp1 = s.gp1 := rfl
@[simp] theorem State.readReg_gp2 : s.readReg .gp2 = s.gp2 := rfl

@[simp] theorem State.writeReg_pc_pc : (s.writeReg .pc v).pc = v := rfl
@[simp] theorem State.writeReg_pc_gp1 : (s.writeReg .pc v).gp1 = s.gp1 := rfl
@[simp] theorem State.writeReg_pc_gp2 : (s.writeReg .pc v).gp2 = s.gp2 := rfl
@[simp] theorem State.writeReg_gp1_pc : (s.writeReg .gp1 v).pc = s.pc := rfl
@[simp] theorem State.writeReg_gp1_gp1 : (s.writeReg .gp1 v).gp1 = v := rfl
@[simp] theorem State.writeReg_gp1_gp2 : (s.writeReg .gp1 v).gp2 = s.gp2 := rfl
@[simp] theorem State.writeReg_gp2_pc : (s.writeReg .gp2 v).pc = s.pc := rfl
@[simp] theorem State.writeReg_gp2_gp1 : (s.writeReg .gp2 v).gp1 = s.gp1 := rfl
@[simp] theorem State.writeReg_gp2_gp2 : (s.writeReg .gp2 v).gp2 = v := rfl
@[simp] theorem State.writeReg_mem (r : Reg) : (s.writeReg r v).mem = s.mem := by cases r <;> rfl
@[simp] theorem State.writeReg_fsm (r : Reg) : (s.writeReg r v).fsm = s.fsm := by cases r <;> rfl
@[simp] theorem State.writeReg_err (r : Reg) : (s.writeReg r v).err = s.err := by cases r <;> rfl
@[simp] theorem State.writeReg_trace (r : Reg) : (s.writeReg r v).trace = s.trace := by cases r <;> rfl

@[simp] theorem State.takeFault_pc : (s.takeFault k).pc = s.pc := rfl
@[simp] theorem State.takeFault_gp1 : (s.takeFault k).gp1 = s.gp1 := rfl
@[simp] theorem State.takeFault_gp2 : (s.takeFault k).gp2 = s.gp2 := rfl
@[simp] theorem State.takeFault_mem : (s.takeFault k).mem = s.mem := rfl
@[simp] theorem State.takeFault_fsm : (s.takeFault k).fsm = .faulted := rfl
@[simp] theorem State.takeFault_err : (s.takeFault k).err = some k := rfl
@[simp] theorem State.takeFault_trace : (s.takeFault k).trace = s.trace := rfl

@[simp] theorem State.record_pc : (s.record i).pc = s.pc := rfl
@[simp] theorem State.record_gp1 : (s.record i).gp1 = s.gp1 := rfl
@[simp] theorem State.record_gp2 : (s.record i).gp2 = s.gp2 := rfl
@[simp] theorem State.record_mem : (s.record i).mem = s.mem := rfl
@[simp] theorem State.record_fsm : (s.record i).fsm = s.fsm := rfl
@[simp] theorem State.record_err : (s.record i).err = s.err := rfl
@[simp] theorem State.record_trace : (s.record i).trace = s.trace ++ [i] := rfl

@[simp] theorem State.advance_pc : (s.advance n).pc = s.pc + BitVec.ofNat 16 n := rfl
@[simp] theorem State.advance_gp1 : (s.advance n).gp1 = s.gp1 := rfl
@[simp] theorem State.advance_gp2 : (s.advance n).gp2 = s.gp2 := rfl
@[simp] theorem State.advance_mem : (s.advance n).mem = s.mem := rfl
@[simp] theorem State.advance_fsm : (s.advance n).fsm = s.fsm := rfl
@[simp] theorem State.advance_err : (s.advance n).err = s.err := rfl
@[simp] theorem State.advance_trace : (s.advance n).trace = s.trace := rfl

@[simp] theorem State.retire_pc : (s.retire i).pc = s.pc + BitVec.ofNat 16 i.size := rfl
@[simp] theorem State.retire_gp1 : (s.retire i).gp1 = s.gp1 := rfl
@[simp] theorem State.retire_gp2 : (s.retire i).gp2 = s.gp2 := rfl
@[simp] theorem State.retire_mem : (s.retire i).mem = s.mem := rfl
@[simp] theorem State.retire_fsm : (s.retire i).fsm = s.fsm := rfl
@[simp] theorem State.retire_err : (s.retire i).err = s.err := rfl
@[simp] theorem State.retire_trace : (s.retire i).trace = s.trace ++ [i] := rfl

/-- Register write and read: the register written holds the value, every other register what it held. -/
theorem State.readReg_writeReg (r q : Reg) :
    (s.writeReg r v).readReg q = if q = r then v else s.readReg q := by
  cases r <;> cases q <;> rfl

/-- The end of an executed instruction changes no register but PC. -/
theorem State.readReg_retire {q : Reg} (h : q ≠ .pc) : (s.retire i).readReg q = s.readReg q := by
  cases q <;> first | rfl | exact absurd rfl h

end Sys2Proof.Machine
end

