-- ==== Sys2Proof/Laws/Ops.lean ====
section
/-! SUPPORT. What each meaning can answer, said once; later proofs cite these and do not unfold a meaning. -/

namespace Sys2Proof.Machine

variable {s t : State}

theorem execLoadWord_cases (r : Reg) (addr : Byte) (s : State) :
    (∃ v, s.mem.readWord (cellAddress addr) = some v ∧
      execLoadWord r addr s = .next ((s.writeReg r v).retire (.loadWord r addr))) ∨
    (s.mem.size ≤ cellAddress addr + 1 ∧ execLoadWord r addr s = .next (s.takeFault .accessBeyondImage)) := by
  unfold execLoadWord
  cases h : s.mem.readWord (cellAddress addr) with
  | some v => exact .inl ⟨v, rfl, rfl⟩
  | none => exact .inr ⟨(Memory.readWord_eq_none_iff _ _).1 h, rfl⟩

theorem execStoreWord_next {r : Reg} {addr : Byte} (h : execStoreWord r addr s = .next t) :
    ∃ m, s.mem.writeWord (cellAddress addr) (s.readReg r) = some m ∧
      t = State.retire { s with mem := m } (.storeWord r addr) := by
  unfold execStoreWord at h
  split at h
  · rename_i m hm; cases h; exact ⟨m, hm, rfl⟩
  · cases h

/-- All that an instruction can do when it answers a next state: a load faults on a missing cell, `Halt` stops the
engine, a store changes the memory and retires, and every other instruction writes its destination and retires. -/
theorem exec_next_cases {i : Instr} (h : exec i s = .next t) :
    (∃ r addr, i = .loadWord r addr ∧ s.mem.size ≤ cellAddress addr + 1 ∧ t = s.takeFault .accessBeyondImage) ∨
    (i = .halt ∧ t = { s.record .halt with fsm := .halted }) ∨
    (∃ r addr m, i = .storeWord r addr ∧ s.mem.writeWord (cellAddress addr) (s.readReg r) = some m ∧
      t = State.retire { s with mem := m } i) ∨
    (∃ r v, i ≠ .halt ∧ t = (s.writeReg r v).retire i ∧
      ((∃ addr, i = .loadWord r addr ∧ s.mem.readWord (cellAddress addr) = some v) ∨
       (∃ b, i = .add r b ∧ v = addWord (s.readReg r) (s.readReg b)) ∨
       (∃ b, i = .sub r b ∧ v = subWord (s.readReg r) (s.readReg b)))) := by
  cases i with
  | loadWord r addr =>
    rcases execLoadWord_cases r addr s with ⟨v, hv, e⟩ | ⟨hs, e⟩ <;> (simp only [exec, e] at h; cases h)
    · exact .inr (.inr (.inr ⟨r, v, by simp, rfl, .inl ⟨addr, rfl, hv⟩⟩))
    · exact .inl ⟨r, addr, rfl, hs, rfl⟩
  | storeWord r addr =>
    obtain ⟨m, hm, rfl⟩ := execStoreWord_next h
    exact .inr (.inr (.inl ⟨r, addr, m, rfl, hm, rfl⟩))
  | add a b => cases h; exact .inr (.inr (.inr ⟨a, _, by simp, rfl, .inr (.inl ⟨b, rfl, rfl⟩)⟩))
  | sub a b => cases h; exact .inr (.inr (.inr ⟨a, _, by simp, rfl, .inr (.inr ⟨b, rfl, rfl⟩)⟩))
  | halt => cases h; exact .inr (.inl ⟨rfl, rfl⟩)

@[simp] theorem addWord_eq (a b : Word) : addWord a b = a + b := rfl
@[simp] theorem subWord_eq (a b : Word) : subWord a b = a - b := rfl
@[simp] theorem cellAddress_eq (addr : Byte) : cellAddress addr = addr.toNat := rfl

end Sys2Proof.Machine
end

