-- ==== Sys2Proof/Laws/PerInstr.lean ====
section
/-! SUPPORT. Statements about every instruction as syntax, one lemma per constructor. -/

namespace Sys2Proof.Laws.EncodeSize

/-- The encoder writes exactly the instruction's size in bytes (R50, R57). -/
def Statement (i : Instr) : Prop := (encode i).length = i.size

theorem loadWord (r : Reg) (addr : Byte) : Statement (.loadWord r addr) := rfl
theorem storeWord (r : Reg) (addr : Byte) : Statement (.storeWord r addr) := rfl
theorem add (a b : Reg) : Statement (.add a b) := rfl
theorem sub (a b : Reg) : Statement (.sub a b) := rfl
theorem halt : Statement .halt := rfl

end Sys2Proof.Laws.EncodeSize
end

