-- ==== Sys2Proof/Laws/Step.lean ====
section
/-! SUPPORT. All that a step can do, said once. -/

namespace Sys2Proof.Machine

/-- A step that answers a next state did nothing in a terminal state, or took a decode failure as a fault, or executed
the decoded instruction. -/
theorem step_next_cases {s t : State} (h : step s = .next t) :
    (s.fsm ≠ .running ∧ t = s) ∨
    (s.fsm = .running ∧ Config.minImageSize ≤ s.mem.size ∧
      ((∃ k, decode s.mem s.pc = .error k ∧ t = s.takeFault k) ∨
       ∃ i, decode s.mem s.pc = .ok i ∧ exec i s = .next t)) := by
  unfold step engineStep at h
  cases hf : s.fsm with
  | halted => rw [hf] at h; cases h; exact .inl ⟨by simp, rfl⟩
  | faulted => rw [hf] at h; cases h; exact .inl ⟨by simp, rfl⟩
  | running =>
    rw [hf] at h
    simp only [cycle] at h
    split at h
    · cases h
    · rename_i hsz
      refine .inr ⟨rfl, not_lt.1 hsz, ?_⟩
      cases hd : decode s.mem s.pc with
      | error k => rw [hd] at h; cases h; exact .inl ⟨k, rfl, rfl⟩
      | ok i => rw [hd] at h; exact .inr ⟨i, rfl, h⟩

/-- A run of the host's `Host.Core.run` begins with one step of the machine. -/
theorem core_run_succ {s t : State} (h : step s = .next t) (k : Nat) :
    Host.Core.run Sys2Proof.core (k + 1) s = Host.Core.run Sys2Proof.core k t := by
  have h' : Sys2Proof.core.step s = .next t := h
  simp only [Host.Core.run, h']

end Sys2Proof.Machine
end

