-- ==== Sys2Proof/Machine/TextForm.lean ====
section
/-! DEFINITION. The textual form of an instruction (30_encoding.md R61, D12). -/

namespace Sys2Proof.Machine

/-- The name of a register (R61). -/
def regText : Reg → String
  | .pc => "PC"
  | .gp1 => "GP1"
  | .gp2 => "GP2"

/-- One hexadecimal digit. -/
def hexDigit (n : Nat) : Char := "0123456789abcdef".toList.getD n '?'

/-- An address as a hexadecimal byte (R61). -/
def byteText (b : Byte) : String :=
  "0x" ++ String.ofList [hexDigit (b.toNat / 16), hexDigit (b.toNat % 16)]

/-- The variant name, then the operands in encoding order; `Halt` has no parentheses (R61). -/
def instrText : Instr → String
  | .loadWord r addr => "LoadWord(" ++ regText r ++ ", " ++ byteText addr ++ ")"
  | .storeWord r addr => "StoreWord(" ++ regText r ++ ", " ++ byteText addr ++ ")"
  | .add a b => "Add(" ++ regText a ++ ", " ++ regText b ++ ")"
  | .sub a b => "Sub(" ++ regText a ++ ", " ++ regText b ++ ")"
  | .halt => "Halt"

end Sys2Proof.Machine
end

