-- ==== Sys2Proof/Tests/Slice0.lean ====
section
/-! SUPPORT. The model's own tests. Expected values are taken from the worked examples and derived vectors of
95_test_vectors.md (S1, S2, V-RT, 2.1 to 2.7, P8, P10) or written out from the encodings of 30_encoding.md. The witness
theorems at the end show, for each statement that has hypotheses, a concrete state and operands that meet them. -/

namespace Sys2Proof.Tests

open Sys2Proof Sys2Proof.Machine

/-- The image of the source's scenario (S1). -/
def scenario : List Byte :=
  [0x01, 0x01, 0x10, 0x01, 0x02, 0x12, 0x03, 0x01, 0x02, 0x02, 0x01, 0x0e, 0xff, 0x00,
   0x00, 0x00, 0xa1, 0x14, 0x0c, 0x00]

/-- An image of `n` cells with these bytes from address `a` on, and `0x00` elsewhere. -/
def imageAt (n a : Nat) (bs : List Byte) : Memory := (Memory.mk n []).setBytes a bs

/-- The machine at `pc` over a memory, its registers as given. -/
def machineAt (pc : Word) (m : Memory) (g1 g2 : Word := 0) : State :=
  { State.reset with pc := pc, mem := m, gp1 := g1, gp2 := g2 }

/-- The scenario's input words, `a1 14 0c 00` at `0x10`, with a 21st cell `7e` (2.2). -/
def inputs : Memory := imageAt 21 0x10 [0xa1, 0x14, 0x0c, 0x00, 0x7e]

/-- The next state an outcome answers. -/
def after (o : Host.Outcome State Fault Refusal) : State :=
  match o with
  | .next t => t
  | .fault _ => State.reset
  | .refused _ => State.reset

/-- An outcome answers a next state of which `p` holds. -/
def nextIs (o : Host.Outcome State Fault Refusal) (p : State → Bool) : Bool :=
  match o with
  | .next t => p t
  | .fault _ => false
  | .refused _ => false

/-- What a decode gives, comparable by `decide`. -/
def decoded (m : Memory) (pc : Word) : Option Instr × Option ErrorKind :=
  match decode m pc with
  | .ok i => (some i, none)
  | .error k => (none, some k)

/-! Well-formedness: each check refuses an ill-formed term and accepts the edge of its band (R77, R78). -/

theorem test_wellFormed_load_below : (Instr.loadWord .gp1 0x0f).wellFormed = false := by decide
theorem test_wellFormed_load_above : (Instr.loadWord .gp1 0x14).wellFormed = false := by decide
theorem test_wellFormed_store_below : (Instr.storeWord .gp1 0x0d).wellFormed = false := by decide
theorem test_wellFormed_store_above : (Instr.storeWord .gp1 0x10).wellFormed = false := by decide
theorem test_wellFormed_edges :
    (Instr.loadWord .pc 0x10).WellFormed ∧ (Instr.loadWord .pc 0x13).WellFormed ∧
    (Instr.storeWord .pc 0x0e).WellFormed ∧ (Instr.storeWord .pc 0x0f).WellFormed := by decide

/-! Decoding: words written out from the formats of R51 to R53. -/

theorem test_decode_loadWord : decodeTableWord 24 0x010213 = some (.loadWord .gp2 0x13) := by decide
theorem test_decode_storeWord : decodeTableWord 24 0x02000e = some (.storeWord .pc 0x0e) := by decide
theorem test_decode_add : decodeTableWord 24 0x030102 = some (.add .gp1 .gp2) := by decide
theorem test_decode_sub : decodeTableWord 24 0x040201 = some (.sub .gp2 .gp1) := by decide
theorem test_decode_halt : decodeTableWord 8 0xff = some .halt := by decide

/-- The row words with operand bits all 0: `0x00` is PC, and no address of a data band (R77, R78). -/
theorem test_decode_zero_operands :
    decodeTableWord 24 0x030000 = some (.add .pc .pc) ∧ decodeTableWord 24 0x010000 = none ∧
    decodeTableWord 24 0x020000 = none := by decide

/-- S1: the five decodes the source states. -/
theorem test_decode_scenario :
    decoded (Memory.ofImage scenario) 0x00 = (some (.loadWord .gp1 0x10), none) ∧
    decoded (Memory.ofImage scenario) 0x03 = (some (.loadWord .gp2 0x12), none) ∧
    decoded (Memory.ofImage scenario) 0x06 = (some (.add .gp1 .gp2), none) ∧
    decoded (Memory.ofImage scenario) 0x09 = (some (.storeWord .gp1 0x0e), none) ∧
    decoded (Memory.ofImage scenario) 0x0c = (some .halt, none) := by decide

/-- 2.1: the order of the checks (R137). -/
theorem test_decode_order_of_checks :
    decoded (imageAt 20 0x0c [0x03, 0xff, 0xff]) 0x0c = (none, some .instructionOutOfBounds) ∧
    decoded (imageAt 20 0x0d [0x00]) 0x0d = (none, some .unknownInstruction) ∧
    decoded (imageAt 20 0x0c [0xff, 0x99, 0x99]) 0x0c = (some .halt, none) ∧
    decoded (imageAt 20 0 [0x01, 0x03, 0x14]) 0 = (none, some .paramMismatchForInstruction) ∧
    decoded (imageAt 20 0x0e [0xff]) 0x0e = (none, some .instructionOutOfBounds) := by decide

theorem test_encode_bytes :
    encode (.loadWord .gp1 0x10) = [0x01, 0x01, 0x10] ∧ encode (.storeWord .gp1 0x0e) = [0x02, 0x01, 0x0e] ∧
    encode (.add .gp1 .gp2) = [0x03, 0x01, 0x02] ∧ encode (.sub .pc .gp1) = [0x04, 0x00, 0x01] ∧
    encode .halt = [0xff] := by decide

/-- R82: the decoder block on the scenario's first and last instruction, and on an unknown opcode. -/
theorem test_decoderPort :
    decoderPort (Memory.ofImage scenario) 0x00 =
      { ok := 1, errKind := 0, tag := some 1, f1 := some 1, f2 := some 0x10, size := some 3 } ∧
    decoderPort (Memory.ofImage scenario) 0x0c =
      { ok := 1, errKind := 0, tag := some 7, f1 := none, f2 := none, size := some 1 } ∧
    decoderPort (Memory.ofImage scenario) 0x0d =
      { ok := 0, errKind := 2, tag := none, f1 := none, f2 := none, size := none } := by decide

/-- R61: the source's own spelling. -/
theorem test_text : instrText (.loadWord .gp1 0x10) = "LoadWord(GP1, 0x10)" := by decide

/-! The instructions (2.2 to 2.6). -/

/-- Odd address: low byte `mem[0x11]`, high byte `mem[0x12]`. -/
theorem test_loadWord_odd :
    nextIs (exec (.loadWord .gp1 0x11) (machineAt 0 inputs)) (fun t => t.gp1 == 0x0c14 && t.pc == 3) = true := by decide
/-- `LoadWord(PC, 0x10)` at 6 continues at `0x14a1 + 3`. -/
theorem test_loadWord_pc :
    nextIs (exec (.loadWord .pc 0x10) (machineAt 6 inputs)) (fun t => t.pc == 0x14a4) = true := by decide
/-- `StoreWord(GP1, 0x0f)` reaches the input band (R108). -/
theorem test_storeWord_0f :
    nextIs (exec (.storeWord .gp1 0x0f) (machineAt 0 inputs 0x1234)) (fun t => t.result == some 0x3400 &&
      t.mem.cell? 0x10 == some 0x12 && t.mem.cell? 0x11 == some 0x14 && t.pc == 3) = true := by decide
/-- `StoreWord(PC, 0x0e)` at 9 stores its own address. -/
theorem test_storeWord_pc :
    nextIs (exec (.storeWord .pc 0x0e) (machineAt 9 inputs)) (fun t => t.result == some 9 && t.pc == 0x0c) = true := by
  decide
/-- `0xffff + 0x0001` wraps. -/
theorem test_add_wraps :
    nextIs (exec (.add .gp1 .gp2) (machineAt 0 inputs 0xffff 1)) (fun t => t.gp1 == 0 && t.gp2 == 1 && t.pc == 3) = true := by
  decide
/-- `Add(PC, GP1)` at 9 with `gp1 = 0xfffa` continues at 6. -/
theorem test_add_pc :
    nextIs (exec (.add .pc .gp1) (machineAt 9 inputs 0xfffa)) (fun t => t.pc == 6 && t.gp1 == 0xfffa) = true := by
  decide
/-- `0x0001 - 0x0002` wraps. -/
theorem test_sub_wraps :
    nextIs (exec (.sub .gp1 .gp2) (machineAt 6 inputs 1 2)) (fun t => t.gp1 == 0xffff && t.gp2 == 2 && t.pc == 9) = true := by
  decide
/-- `Sub(PC, GP1)` at 3 with `gp1 = 6` continues at 0, through the wrap of the advance. -/
theorem test_sub_pc :
    nextIs (exec (.sub .pc .gp1) (machineAt 3 inputs 6)) (fun t => t.pc == 0 && t.gp1 == 6) = true := by decide
/-- `Halt` leaves PC at its own address and is recorded. -/
theorem test_halt :
    nextIs (exec .halt (machineAt 0x0c inputs 0x14ad)) (fun t => t.pc == 0x0c && t.gp1 == 0x14ad &&
      t.fsm == .halted && t.err == none && t.trace == [.halt]) = true := by decide

/-! The step. -/

/-- P8 with 20 cells: the fault changes only `fsm` and `err`. -/
theorem test_step_access_beyond_image :
    nextIs (step (machineAt 0 (imageAt 20 0 [0x01, 0x01, 0x13, 0xff]))) (fun t =>
      t == { machineAt 0 (imageAt 20 0 [0x01, 0x01, 0x13, 0xff]) with fsm := .faulted, err := some .accessBeyondImage })
      = true := by decide
/-- P8 with 21 cells: the load reads cell `0x14`. -/
theorem test_step_load_21st_cell :
    nextIs (step (machineAt 0 ((imageAt 21 0 [0x01, 0x01, 0x13]).setBytes 0x13 [0xcd, 0xab])))
      (fun t => t.gp1 == 0xabcd && t.pc == 3) = true := by decide
/-- P10: the reset state's own first step, over twenty zero cells. -/
theorem test_step_reset :
    nextIs (step State.reset) (fun t => t == { State.reset with fsm := .faulted, err := some .unknownInstruction })
      = true := by decide
/-- A word placed for the next fetch runs as the first instruction. -/
theorem test_withFetchWord :
    nextIs (step (State.reset.withFetchWord 24 0x030000)) (fun t => t.pc == 3 && t.trace == [.add .pc .pc]) = true := by
  decide
/-- Construction refuses 19 cells and loads 20. -/
theorem test_construct :
    nextIs (construct (scenario.take 19)) (fun _ => true) = false ∧
    nextIs (construct scenario) (fun s => s.observe.result == some 0 && s.mem.cell? 0x10 == some 0xa1) = true := by
  decide

/-! Witnesses: the hypotheses of each statement are met together by something concrete. -/

theorem witness_ConstructLoadsImageAndClearsState : 20 ≤ scenario.length := by decide
theorem witness_ShortImagesAreRefused :
    (scenario.take 19).length < 20 ∧ (machineAt 0 ⟨19, []⟩).fsm = .running ∧ (machineAt 0 ⟨19, []⟩).mem.size < 20 := by
  decide
theorem witness_DecodeOutsideInstructionBandFails :
    0x000d < (0x000e : Word).toNat ∧ (0x000d : Word).toNat ≤ 0x000d := by decide
theorem witness_DecodeFailsOnUnknownOpcode :
    (0x000d : Word).toNat ≤ 0x000d ∧ (Memory.ofImage scenario).cell? (0x000d : Word).toNat = some 0x00 := by decide
theorem witness_DecodeHaltReadsNoOperands :
    (0x000d : Word).toNat ≤ 0x000d ∧ (imageAt 20 0x0d [0xff, 0x99]).cell? (0x000d : Word).toNat = some 0xff := by decide
theorem witness_DecodeBoundsOperandAddresses :
    (0x000c : Word).toNat ≤ 0x000d ∧ (imageAt 20 0x0c [0x03]).cell? (0x000c : Word).toNat = some 0x03 ∧
    ((0x03 : Byte) = 0x01 ∨ (0x03 : Byte) = 0x02 ∨ (0x03 : Byte) = 0x03 ∨ (0x03 : Byte) = 0x04) := by decide

/-- Three bytes at `0x0b`, the last address a three-byte form can start at. -/
def lastSlot (b0 b1 b2 : Byte) : Memory := imageAt 20 0x0b [b0, b1, b2]

/-- The bytes stand at `0x0b` and the two cells after it. -/
def standsAtLastSlot (m : Memory) (b0 b1 b2 : Byte) : Bool :=
  decide ((0x000b : Word).toNat ≤ 0x000b) && m.cell? (0x000b : Word).toNat == some b0 &&
  m.cell? ((0x000b : Word).toNat + 1) == some b1 && m.cell? ((0x000b : Word).toNat + 2) == some b2

theorem witness_DecodeAddSubValidatesRegisters :
    standsAtLastSlot (lastSlot 0x03 0x02 0x00) 0x03 0x02 0x00 ∧
    standsAtLastSlot (lastSlot 0x03 0x02 0x03) 0x03 0x02 0x03 ∧
    standsAtLastSlot (lastSlot 0x04 0x02 0x00) 0x04 0x02 0x00 ∧
    standsAtLastSlot (lastSlot 0x04 0x02 0x03) 0x04 0x02 0x03 ∧
    ((0x02 : Byte).toNat ≤ 2 ∧ (0x00 : Byte).toNat ≤ 2) ∧
    ¬ ((0x02 : Byte).toNat ≤ 2 ∧ (0x03 : Byte).toNat ≤ 2) := by decide
theorem witness_DecodeLoadWordValidatesOperands :
    standsAtLastSlot (lastSlot 0x01 0x02 0x13) 0x01 0x02 0x13 ∧
    ((0x02 : Byte).toNat ≤ 2 ∧ 0x10 ≤ (0x13 : Byte).toNat ∧ (0x13 : Byte).toNat ≤ 0x13) ∧
    standsAtLastSlot (lastSlot 0x01 0x02 0x14) 0x01 0x02 0x14 ∧
    ¬ ((0x02 : Byte).toNat ≤ 2 ∧ 0x10 ≤ (0x14 : Byte).toNat ∧ (0x14 : Byte).toNat ≤ 0x13) := by decide
theorem witness_DecodeStoreWordValidatesOperands :
    standsAtLastSlot (lastSlot 0x02 0x02 0x0e) 0x02 0x02 0x0e ∧
    ((0x02 : Byte).toNat ≤ 2 ∧ 0x0e ≤ (0x0e : Byte).toNat ∧ (0x0e : Byte).toNat ≤ 0x0f) ∧
    standsAtLastSlot (lastSlot 0x02 0x02 0x0d) 0x02 0x02 0x0d ∧
    ¬ ((0x02 : Byte).toNat ≤ 2 ∧ 0x0e ≤ (0x0d : Byte).toNat ∧ (0x0d : Byte).toNat ≤ 0x0f) := by decide
theorem witness_DecodeOnImageIsTotal : 20 ≤ (Memory.ofImage scenario).size := by decide

/-- The scenario's memory with other bytes after its first instruction. -/
def scenarioOtherTail : Memory := (Memory.ofImage scenario).setBytes 0x03 [0xee, 0xee, 0x01]

theorem witness_DecodeReadsOnlyInstructionBand :
    (Memory.ofImage scenario).cell? 0x0000 = scenarioOtherTail.cell? 0x0000 ∧
    ((Memory.ofImage scenario).cell? 0x0001 = scenarioOtherTail.cell? 0x0001 ∧
      (Memory.ofImage scenario).cell? 0x0002 = scenarioOtherTail.cell? 0x0002) ∧
    Memory.ofImage scenario ≠ scenarioOtherTail := by decide
/-- The same at a `Halt`, where the two cells after the opcode differ too. -/
theorem witness_DecodeReadsOnlyInstructionBand_halt :
    (imageAt 20 0 [0xff, 0x01, 0x10]).cell? 0x0000 = (imageAt 20 0 [0xff, 0x99, 0x99]).cell? 0x0000 ∧
    ∀ op, (imageAt 20 0 [0xff, 0x01, 0x10]).cell? 0x0000 = some op →
      ¬ (op = 0x01 ∨ op = 0x02 ∨ op = 0x03 ∨ op = 0x04) :=
  ⟨by decide, fun op h => by
    have e : (imageAt 20 0 [0xff, 0x01, 0x10]).cell? 0x0000 = some 0xff := rfl
    rw [e] at h; cases h; decide⟩
theorem witness_DecodeInvertsEncode :
    (Instr.loadWord .gp2 0x13).WellFormed ∧ (0x000b : Word).toNat + (Instr.loadWord .gp2 0x13).size ≤ 0x000e ∧
    (∀ k, k < 3 → (lastSlot 0x01 0x02 0x13).cell? ((0x000b : Word).toNat + k) =
      (encode (.loadWord .gp2 0x13))[k]?) ∧
    (0x000d : Word).toNat + Instr.halt.size ≤ 0x000e := by decide
theorem witness_EncodeInvertsDecode : decode (lastSlot 0x01 0x02 0x13) 0x000b = .ok (.loadWord .gp2 0x13) := by rfl
theorem witness_DecoderPortCarriesOperandBytes :
    decode (lastSlot 0x01 0x02 0x13) 0x000b = .ok (.loadWord .gp2 0x13) ∧ Instr.loadWord .gp2 0x13 ≠ .halt ∧
    decode (lastSlot 0x01 0x02 0x14) 0x000b = .error .paramMismatchForInstruction := ⟨rfl, by decide, rfl⟩

/-- The scenario's machine right after construction. -/
def start : State := machineAt 0 (Memory.ofImage scenario)

/-- The machine over an image of `n` cells with three bytes at address 0. -/
def running3 (n : Nat) (b0 b1 b2 : Byte) (g1 g2 : Word := 0) : State := machineAt 0 (imageAt n 0 [b0, b1, b2]) g1 g2

theorem witness_StepRunsDecodedInstruction :
    start.fsm = .running ∧ 20 ≤ start.mem.size ∧ decode start.mem start.pc = .ok (.loadWord .gp1 0x10) ∧
    (Instr.loadWord .gp1 0x10).WellFormed := ⟨rfl, by decide, rfl, rfl⟩
theorem witness_DecodeFailureTakesFault :
    State.reset.fsm = .running ∧ 20 ≤ State.reset.mem.size ∧
    decode State.reset.mem State.reset.pc = .error .unknownInstruction := ⟨rfl, by decide, rfl⟩
theorem witness_TerminalStatesAbsorbSteps :
    ({ start with fsm := .halted } : State).fsm ≠ .running ∧
    ({ start with fsm := .faulted } : State).fsm ≠ .running := by decide
theorem witness_LoadWordReadsLittleEndianWord :
    (Reg.gp1 ≠ .pc ∧ inputs.cell? (cellAddress 0x13) = some 0x00 ∧
      inputs.cell? (cellAddress 0x13 + 1) = some 0x7e) ∧
    ((Instr.loadWord .gp1 0x13).WellFormed ∧ 20 ≤ inputs.size ∧ ((0x13 : Byte) ≠ 0x13 ∨ inputs.size ≠ 20)) ∧
    ((Instr.loadWord .gp1 0x10).WellFormed ∧ 20 ≤ (Memory.ofImage scenario).size ∧
      ((0x10 : Byte) ≠ 0x13 ∨ (Memory.ofImage scenario).size ≠ 20)) := by decide
theorem witness_LoadWordToPcJumps :
    inputs.cell? (cellAddress 0x10) = some 0xa1 ∧ inputs.cell? (cellAddress 0x10 + 1) = some 0x14 := by decide
theorem witness_LoadWordBeyondImageFaults :
    start.mem.size ≤ cellAddress 0x13 + 1 ∧ (Instr.loadWord .gp1 0x13).WellFormed ∧ 20 ≤ start.mem.size := by decide
theorem witness_StoreWordWritesLittleEndianBytes :
    (cellAddress 0x0e + 1 < start.mem.size ∧ (Instr.storeWord .gp1 0x0e).WellFormed) ∧
    cellAddress 0x0f + 1 < start.mem.size ∧ (Instr.storeWord .gp1 0x0f).WellFormed ∧ 20 ≤ start.mem.size := by decide
theorem witness_StoreWordBeyondImageStops : start.mem.size ≤ cellAddress 0x13 + 1 := by decide
theorem witness_AddWritesWrappedSum_SubWritesWrappedDifference : Reg.gp2 ≠ .pc := by decide
theorem witness_SubUndoesAdd : Reg.gp1 ≠ .gp2 ∧ Reg.gp1 ≠ .pc ∧ Reg.gp2 ≠ .pc := by decide
theorem witness_StoreThenLoadReturnsValue :
    start.mem.writeWord 0x12 0x1234 = some (start.mem.setBytes 0x12 [0x34, 0x12]) ∧
    Reg.gp2 ≠ .pc ∧ cellAddress 0x12 + 1 < start.mem.size := by decide
theorem witness_StoreAtOutputBandEndReachesInputBand :
    Reg.gp2 ≠ .pc ∧ start.mem.cell? 0x0e = some 0x00 ∧ start.mem.cell? 0x11 = some 0x14 := by decide
theorem witness_StoreMakesResult :
    20 ≤ start.mem.size ∧ (∀ r addr, Instr.halt ≠ .storeWord r addr) ∧
    exec .halt start = .next (after (exec .halt start)) := ⟨by decide, by simp, rfl⟩
theorem witness_StepAnswersOnEveryImage : 20 ≤ State.reset.mem.size := by decide
theorem witness_FaultEntryIsPrecise :
    (State.reset.fsm = .running ∧ step State.reset = .next (after (step State.reset)) ∧
      (after (step State.reset)).fsm = .faulted) ∧
    ((running3 20 0x01 0x01 0x13).fsm = .running ∧
      step (running3 20 0x01 0x01 0x13) = .next (after (step (running3 20 0x01 0x01 0x13))) ∧
      (after (step (running3 20 0x01 0x01 0x13))).fsm = .faulted) := ⟨⟨rfl, rfl, rfl⟩, rfl, rfl, rfl⟩
theorem witness_OnlyHaltEntersHalted :
    (running3 20 0xff 0 0).fsm = .running ∧
    step (running3 20 0xff 0 0) = .next (after (step (running3 20 0xff 0 0))) ∧
    (after (step (running3 20 0xff 0 0))).fsm = .halted := ⟨rfl, rfl, rfl⟩
theorem witness_StepWithoutPcDestinationAdvancesByThree :
    start.fsm = .running ∧ step start = .next (after (step start)) ∧ (after (step start)).fsm = .running ∧
    decode start.mem start.pc = .ok (.loadWord .gp1 0x10) ∧ (Instr.loadWord .gp1 0x10).destination ≠ some .pc :=
  ⟨rfl, rfl, rfl, rfl, by decide⟩
theorem witness_StepWritesOnlyPcAndDestination :
    step start = .next (after (step start)) ∧ Reg.gp2 ≠ .pc ∧
    ∀ i, decode start.mem start.pc = .ok i → i.destination ≠ some .gp2 :=
  ⟨rfl, by decide, fun i h => by
    have e : decode start.mem start.pc = .ok (.loadWord .gp1 0x10) := rfl
    rw [e] at h; cases h; decide⟩
theorem witness_StepWritesOnlyCellsReachedByStores :
    step start = .next (after (step start)) ∧ ∀ r addr, decode start.mem start.pc ≠ .ok (.storeWord r addr) :=
  ⟨rfl, fun r addr h => by
    have e : decode start.mem start.pc = .ok (.loadWord .gp1 0x10) := rfl
    rw [e] at h; cases h⟩
theorem witness_TraceRecordsExecutedInstructions :
    exec .halt start = .next (after (exec .halt start)) ∧
    exec (.loadWord .gp1 0x13) start = .next (after (exec (.loadWord .gp1 0x13) start)) ∧
    (step start = .next (after (step start)) ∧ start.fsm = .running ∧ (after (step start)).fsm ≠ .faulted) ∧
    (step State.reset = .next (after (step State.reset)) ∧ (after (step State.reset)).fsm = .faulted) :=
  ⟨rfl, rfl, ⟨rfl, rfl, by decide⟩, rfl, rfl⟩
theorem witness_StepKeepsMachineInv : MachineInv start ∧ step start = .next (after (step start)) :=
  ⟨⟨by decide, by decide, by decide, by decide⟩, rfl⟩
theorem witness_StepKeepsHaltInv :
    HaltInv (running3 20 0xff 0 0) ∧ step (running3 20 0xff 0 0) = .next (after (step (running3 20 0xff 0 0))) :=
  ⟨⟨(fun h => nomatch h), fun _ => by decide⟩, rfl⟩
theorem witness_StepKeepsFaultInv : FaultInv State.reset ∧ step State.reset = .next (after (step State.reset)) :=
  ⟨(fun h => nomatch h), rfl⟩

/-- A machine about to store at the end of the output band. -/
def storing : State := running3 21 0x02 0x01 0x0f 0x1234

theorem witness_NoRunChangesWhatDecodes : StepsTo storing (after (step storing)) ∧ after (step storing) ≠ storing :=
  ⟨.tail (.refl _) rfl, by decide⟩

/-- The same machine over 22 cells, the last of them `0xaa`. -/
def storingWithTail : State := { storing with mem := (imageAt 22 0 [0x02, 0x01, 0x0f]).setBytes 0x15 [0xaa] }

theorem witness_CellsAboveTheTwentyFirstAreInert :
    20 ≤ storing.mem.size ∧ 20 ≤ storingWithTail.mem.size ∧ AgreeOn (fun a => a < 0x15) storing storingWithTail ∧
    storing ≠ storingWithTail :=
  ⟨by decide, by decide, ⟨rfl, rfl, rfl, rfl, rfl, rfl, by decide⟩, by decide⟩

/-- The same machine with other bytes in the output band. -/
def storingOverOther : State := { storing with mem := storing.mem.setBytes 0x0e [0xee, 0xee] }

theorem witness_OutputBandIsNeverRead :
    20 ≤ storing.mem.size ∧ 20 ≤ storingOverOther.mem.size ∧
    AgreeOn (fun a => a < 0x0e ∨ 0x0f < a) storing storingOverOther ∧ storing ≠ storingOverOther :=
  ⟨by decide, by decide, ⟨rfl, rfl, rfl, rfl, rfl, rfl, fun a ha => by
    simp only [storingOverOther, Memory.setBytes]
    have h0 : a ≠ 0x0e := by omega
    have h1 : a ≠ 0x0f := by omega
    simp [Memory.cell?, Memory.setByte, storing, running3, machineAt, imageAt, Memory.setBytes, updateCells, insertCell,
      lookupCell, unlistedByte, h0, h1]⟩, by decide⟩

/-- A machine whose next instruction is `Halt`. -/
def halting : State := running3 20 0xff 0 0

/-- The same machine with other bytes in the output band and a 22nd cell. -/
def haltingOther : State :=
  { halting with mem := ((imageAt 22 0 [0xff, 0, 0]).setBytes 0x0e [0xee, 0xee]).setBytes 0x15 [0xaa] }
/-- `halting` over 21 cells, so that it agrees with `haltingOther` on cell `0x14`. -/
def halting21 : State := running3 21 0xff 0 0

theorem witness_RunIsIterationOfStep : RunReturns halting (after (step halting)) :=
  .cycled rfl rfl (.stopped (by decide))
theorem witness_RunEndIsFixedByProgramAndInput :
    20 ≤ halting21.mem.size ∧ 20 ≤ haltingOther.mem.size ∧
    AgreeOn (fun a => a ≤ 0x0d ∨ (0x10 ≤ a ∧ a ≤ 0x14)) halting21 haltingOther ∧ halting21 ≠ haltingOther ∧
    RunReturns halting21 (after (step halting21)) :=
  ⟨by decide, by decide, ⟨rfl, rfl, rfl, rfl, rfl, rfl, fun a ha => by
    have small : ∀ a, a < 0x15 → (a ≤ 0x0d ∨ (0x10 ≤ a ∧ a ≤ 0x14)) →
        halting21.mem.cell? a = haltingOther.mem.cell? a := by decide
    exact small a (by omega) ha⟩, by decide, .cycled rfl rfl (.stopped (by decide))⟩
theorem witness_CompletedRunEndsAtItsHalt :
    halting.fsm = .running ∧ RunReturns halting (after (step halting)) ∧ Completed (after (step halting)) :=
  ⟨rfl, .cycled rfl rfl (.stopped (by decide)), rfl⟩
theorem witness_RunsWithoutPcWritesEndWithinFiveCycles :
    start.fsm = .running ∧ start.pc = 0x0000 ∧ 20 ≤ start.mem.size ∧
    ∀ p ∈ [(0x0000 : Word), 0x0003, 0x0006, 0x0009], ∀ i, decode start.mem p = .ok i → i.destination ≠ some .pc :=
  ⟨rfl, rfl, by decide, fun p hp i h => by
    have e0 : decode start.mem 0x0000 = .ok (.loadWord .gp1 0x10) := rfl
    have e1 : decode start.mem 0x0003 = .ok (.loadWord .gp2 0x12) := rfl
    have e2 : decode start.mem 0x0006 = .ok (.add .gp1 .gp2) := rfl
    have e3 : decode start.mem 0x0009 = .ok (.storeWord .gp1 0x0e) := rfl
    simp only [List.mem_cons, List.not_mem_nil, or_false] at hp
    rcases hp with rfl | rfl | rfl | rfl
    · rw [e0] at h; cases h; decide
    · rw [e1] at h; cases h; decide
    · rw [e2] at h; cases h; decide
    · rw [e3] at h; cases h; decide⟩
/-- `Sub(PC, GP1)` at an address, with `gp1 = 3`. -/
def selfLoop (pc : Word) : State := machineAt pc (imageAt 20 pc.toNat [0x04, 0x00, 0x01]) 3

/-- At address 3 the advance does not wrap, at address 0 it does. -/
theorem witness_SubtractingThreeFromPcNeverEnds :
    ((selfLoop 3).fsm = .running ∧ 20 ≤ (selfLoop 3).mem.size ∧ Reg.gp1 ≠ .pc ∧
      decode (selfLoop 3).mem (selfLoop 3).pc = .ok (.sub .pc .gp1) ∧ (selfLoop 3).readReg .gp1 = 0x0003) ∧
    ((selfLoop 0).fsm = .running ∧ 20 ≤ (selfLoop 0).mem.size ∧
      decode (selfLoop 0).mem (selfLoop 0).pc = .ok (.sub .pc .gp1) ∧ (selfLoop 0).readReg .gp1 = 0x0003) :=
  ⟨⟨rfl, by decide, by decide, rfl, rfl⟩, rfl, by decide, rfl, rfl⟩

/-- The same two bytes written in either order. -/
theorem witness_EqualCellsMeanEqualMemories :
    (((Memory.mk 20 []).setByte 1 7).setByte 0 9).wf ∧ (((Memory.mk 20 []).setByte 0 9).setByte 1 7).wf ∧
    (((Memory.mk 20 []).setByte 1 7).setByte 0 9).size = (((Memory.mk 20 []).setByte 0 9).setByte 1 7).size ∧
    ∀ a, (((Memory.mk 20 []).setByte 1 7).setByte 0 9).cell? a = (((Memory.mk 20 []).setByte 0 9).setByte 1 7).cell? a :=
  ⟨by decide, by decide, rfl, fun _ => rfl⟩

end Sys2Proof.Tests
end

/-! The state's invariants and frames (10_state.md R14, R15, R20, R23): what an executed instruction does to the control
state and to the registers, what the canonical form of a memory lists, and the three statements that follow. -/

namespace Sys2Proof.Machine

variable {s t : State} {i : Instr}

/-! The control state and the trace. -/

/-- What an executed instruction does to `fsm` and the trace: a load of a missing cell faults and is not recorded,
`Halt` stops the engine where it stands, every other instruction leaves `fsm` alone; all but the first are recorded. -/
theorem exec_next_fsm_trace_cases (h : exec i s = .next t) :
    (t.fsm = .faulted ∧ t.trace = s.trace) ∨
    (i = .halt ∧ t.fsm = .halted ∧ t.pc = s.pc ∧ t.mem = s.mem ∧ t.trace = s.trace ++ [.halt]) ∨
    (i ≠ .halt ∧ t.fsm = s.fsm ∧ t.trace = s.trace ++ [i]) := by
  rcases exec_next_cases h with
    ⟨r, addr, rfl, -, rfl⟩ | ⟨rfl, rfl⟩ | ⟨r, addr, m, rfl, -, rfl⟩ | ⟨r, v, hi, rfl, -⟩
  · exact .inl ⟨rfl, rfl⟩
  · exact .inr (.inl ⟨rfl, rfl, rfl, rfl, rfl⟩)
  · exact .inr (.inr ⟨nofun, rfl, rfl⟩)
  · exact .inr (.inr ⟨hi, by simp, by simp⟩)

theorem haltInv_of_fsm_ne_halted (hf : s.fsm ≠ .halted) (ht : .halt ∉ s.trace) : HaltInv s :=
  ⟨fun h => absurd h hf, fun _ => ht⟩

/-- Executing the decoded instruction over a `Halt`-free trace: a `Halt` enters `halted` at the address it was decoded
from, every other instruction keeps the trace `Halt`-free. -/
theorem exec_establishes_haltInv (hf : s.fsm = .running) (ht : .halt ∉ s.trace)
    (hd : decode s.mem s.pc = .ok i) (h : exec i s = .next t) : HaltInv t := by
  rcases exec_next_fsm_trace_cases h with ⟨hf', ht'⟩ | ⟨rfl, hf', hpc, hmem, ht'⟩ | ⟨hi, hf', ht'⟩
  · exact haltInv_of_fsm_ne_halted (by simp [hf']) (by rwa [ht'])
  · exact ⟨fun _ => ⟨by rw [hmem, hpc, hd], s.trace, ht', ht⟩, fun hn => absurd hf' hn⟩
  · exact haltInv_of_fsm_ne_halted (by simp [hf', hf]) (by simp [ht', ht, hi.symm])

/-- Settles O43, by the three ways a step can end: nothing done, a fault that leaves the trace, an executed
instruction. -/
theorem stepKeepsHaltInv : Obligations.StepKeepsHaltInv := by
  intro s t hs h
  rcases step_next_cases h with ⟨-, rfl⟩ | ⟨hf, -, hcycle⟩
  · exact hs
  · have ht : .halt ∉ s.trace := hs.noHalt (by simp [hf])
    rcases hcycle with ⟨k, -, rfl⟩ | ⟨i, hd, he⟩
    · exact haltInv_of_fsm_ne_halted (by simp) (by simpa using ht)
    · exact exec_establishes_haltInv hf ht hd he

/-! The register frame. -/

@[simp] theorem State.readReg_takeFault (s : State) (k : ErrorKind) (q : Reg) :
    (s.takeFault k).readReg q = s.readReg q := by
  cases q <;> rfl

@[simp] theorem State.readReg_setMem (s : State) (m : Memory) (q : Reg) :
    State.readReg { s with mem := m } q = s.readReg q := by
  cases q <;> rfl

@[simp] theorem State.readReg_setFsm (s : State) (f : Fsm) (q : Reg) :
    State.readReg { s with fsm := f } q = s.readReg q := by
  cases q <;> rfl

@[simp] theorem State.readReg_record (s : State) (i : Instr) (q : Reg) :
    (s.record i).readReg q = s.readReg q := by
  cases q <;> rfl

/-- R14: an executed instruction writes its destination and PC only. -/
theorem exec_next_readReg {q : Reg} (h : exec i s = .next t) (hq : q ≠ .pc) (hi : i.destination ≠ some q) :
    t.readReg q = s.readReg q := by
  rcases exec_next_cases h with
    ⟨r, addr, -, -, rfl⟩ | ⟨-, rfl⟩ | ⟨r, addr, m, -, -, rfl⟩ | ⟨r, v, -, rfl, hr⟩
  · rw [State.readReg_takeFault]
  · rw [State.readReg_setFsm, State.readReg_record]
  · rw [State.readReg_retire _ _ hq, State.readReg_setMem]
  · have hdest : i.destination = some r := by
      rcases hr with ⟨addr, rfl, -⟩ | ⟨b, rfl, -⟩ | ⟨b, rfl, -⟩ <;> rfl
    have hne : q ≠ r := fun e => hi (e ▸ hdest)
    rw [State.readReg_retire _ _ hq, State.readReg_writeReg, if_neg hne]

/-- Settles O39, from the register frame of an executed instruction; a terminal state and a fault write no register. -/
theorem stepWritesOnlyPcAndDestination : Obligations.StepWritesOnlyPcAndDestination := by
  intro s t q h hq hdest
  rcases step_next_cases h with ⟨-, rfl⟩ | ⟨-, -, ⟨k, -, rfl⟩ | ⟨i, hd, he⟩⟩
  · rfl
  · exact State.readReg_takeFault s k q
  · exact exec_next_readReg he hq (hdest i hd)

/-! The memory's canonical form. -/

/-- A list with strictly rising addresses and no unlisted byte lists exactly what `lookupCell` finds beside
`unlistedByte`. -/
theorem mem_iff_lookupCell {cs : List Host.Cell} (hs : cs.Pairwise (fun c d => c.1 < d.1))
    (hv : ∀ c ∈ cs, c.2 ≠ unlistedByte) (a : Nat) (b : Byte) :
    (a, b) ∈ cs ↔ lookupCell cs a = b ∧ b ≠ unlistedByte := by
  induction cs with
  | nil => simp only [List.not_mem_nil, lookupCell, false_iff]; exact fun ⟨e, hb⟩ => hb e.symm
  | cons c rest ih =>
    obtain ⟨k, v⟩ := c
    obtain ⟨hk, hrest⟩ := List.pairwise_cons.1 hs
    obtain ⟨hvk, hvrest⟩ := List.forall_mem_cons.1 hv
    rw [List.mem_cons, Prod.mk.injEq, lookupCell]
    split
    · rename_i ha
      subst ha
      have hnot : (a, b) ∉ rest := fun hm => Nat.lt_irrefl a (hk _ hm)
      constructor
      · rintro (⟨-, rfl⟩ | hm)
        · exact ⟨rfl, hvk⟩
        · exact absurd hm hnot
      · rintro ⟨rfl, -⟩; exact .inl ⟨rfl, rfl⟩
    · rename_i ha
      simp [ha, ih hrest hvrest]

/-- R23, log entry 6: a memory in canonical form lists exactly its cells whose byte is not `unlistedByte`. -/
theorem Memory.mem_cells_iff {m : Memory} (h : m.wf) (a : Nat) (b : Byte) :
    (a, b) ∈ m.cells ↔ m.cell? a = some b ∧ b ≠ unlistedByte := by
  obtain ⟨hs, hc⟩ := h
  have hlist := mem_iff_lookupCell hs (fun c hm => (hc c hm).2) a b
  unfold Memory.cell?
  split
  · rw [hlist, Option.some.injEq]
  · rename_i ha
    have hnot : (a, b) ∉ m.cells := fun hm => ha (hc _ hm).1
    simp [hnot]

/-- Two lists of cells with strictly rising addresses and the same members are the same list. -/
theorem cells_eq_of_mem_iff {cs ds : List Host.Cell} (hc : cs.Pairwise (fun c d => c.1 < d.1))
    (hd : ds.Pairwise (fun c d => c.1 < d.1)) (h : ∀ c, c ∈ cs ↔ c ∈ ds) : cs = ds := by
  have : Std.Irrefl (fun c d : Host.Cell => c.1 < d.1) := ⟨fun c => Nat.lt_irrefl c.1⟩
  have : Std.Antisymm (fun c d : Host.Cell => c.1 < d.1) := ⟨fun _ _ h1 h2 => absurd h2 (Nat.lt_asymm h1)⟩
  exact hc.eq_of_mem_iff hd h

/-- Settles O53: equal cells give the two lists the same members, and both lists are strictly rising. -/
theorem equalCellsMeanEqualMemories : Obligations.EqualCellsMeanEqualMemories := by
  intro m n hm hn hsize hcell
  have hcells : m.cells = n.cells :=
    cells_eq_of_mem_iff hm.1 hn.1 fun (a, b) => by
      rw [Memory.mem_cells_iff hm, Memory.mem_cells_iff hn, hcell]
  cases m; cases n; cases hsize; cases hcells; rfl

end Sys2Proof.Machine

/-! The formats H, RA and RR (30_encoding.md R50 to R54) against the decoder, in both directions: a well-formed
instruction that stands encoded inside the instruction band decodes to itself, and a decode that succeeds read the
encoding of its result. -/

namespace Sys2Proof

open Sys2Proof.Machine (Memory)

variable {m : Memory} {pc : Word} {i : Instr} {c : OpClass} {op b1 b2 : Byte}

/-! The instruction constructor against the encoder. -/

/-- The operand forms of R52 and R53: what the constructor answers for a known opcode is well formed, and the bytes it
was given are its encoding. -/
theorem encode_of_buildInstr (hop : OpClass.ofOpcode? op = some c) (hc : c ≠ .halt)
    (h : buildInstr c b1 b2 = some i) : i.WellFormed ∧ encode i = [op, b1, b2] := by
  rw [OpClass.ofOpcode?_eq_some_iff] at hop
  subst hop
  cases c <;> simp only [buildInstr] at h
  case halt => exact absurd rfl hc
  case load | store =>
    split at h
    · rename_i r hr
      obtain rfl := (Reg.ofId?_eq_some_iff b1 r).1 hr
      obtain ⟨hwf, rfl⟩ := (checkBand_eq_some_iff _ i).1 h
      exact ⟨hwf, rfl⟩
    · cases h
  case add | sub =>
    split at h
    · rename_i ra rb ha hb
      obtain rfl := (Reg.ofId?_eq_some_iff b1 ra).1 ha
      obtain rfl := (Reg.ofId?_eq_some_iff b2 rb).1 hb
      cases h
      exact ⟨rfl, rfl⟩
    · cases h

@[simp] theorem Reg.ofId?_id (r : Reg) : Reg.ofId? r.id = some r := (Reg.ofId?_eq_some_iff _ r).2 rfl

theorem checkBand_of_wellFormed (h : i.WellFormed) : checkBand i = some i := (checkBand_eq_some_iff i i).2 ⟨h, rfl⟩

/-- A well-formed instruction other than `Halt` is three bytes, a known opcode and operands from which the constructor
builds it again. -/
theorem exists_buildInstr_encode (hwf : i.WellFormed) (hi : i ≠ .halt) :
    ∃ op b1 b2 c, encode i = [op, b1, b2] ∧ OpClass.ofOpcode? op = some c ∧ c ≠ .halt ∧
      buildInstr c b1 b2 = some i := by
  cases i with
  | loadWord r addr =>
    exact ⟨_, _, _, .load, rfl, rfl, nofun, by simp [buildInstr, checkBand_of_wellFormed hwf]⟩
  | storeWord r addr =>
    exact ⟨_, _, _, .store, rfl, rfl, nofun, by simp [buildInstr, checkBand_of_wellFormed hwf]⟩
  | add a b => exact ⟨_, _, _, .add, rfl, rfl, nofun, by simp [buildInstr]⟩
  | sub a b => exact ⟨_, _, _, .sub, rfl, rfl, nofun, by simp [buildInstr]⟩
  | halt => exact absurd rfl hi

/-! An instruction standing in memory. -/

/-- R50, R57: the encoder writes as many bytes as the instruction's size says. -/
theorem length_encode : ∀ i : Instr, (encode i).length = i.size
  | .loadWord r addr => Laws.EncodeSize.loadWord r addr
  | .storeWord r addr => Laws.EncodeSize.storeWord r addr
  | .add a b => Laws.EncodeSize.add a b
  | .sub a b => Laws.EncodeSize.sub a b
  | .halt => Laws.EncodeSize.halt

theorem size_of_encode (he : encode i = [op, b1, b2]) : i.size = 3 := by rw [← length_encode, he]; rfl

/-- R50: the cells from `a` on hold the bytes of `encode i`, at ascending addresses. -/
def HoldsEncoding (m : Memory) (a : Nat) (i : Instr) : Prop :=
  ∀ k, k < i.size → m.cell? (a + k) = (encode i)[k]?

theorem holdsEncoding_halt_iff (m : Memory) (a : Nat) : HoldsEncoding m a .halt ↔ m.cell? a = some 0xff := by
  simp [HoldsEncoding, Instr.size, encode]

theorem holdsEncoding_iff_of_encode (a : Nat) (he : encode i = [op, b1, b2]) :
    HoldsEncoding m a i ↔ m.cell? a = some op ∧ m.cell? (a + 1) = some b1 ∧ m.cell? (a + 2) = some b2 := by
  rw [HoldsEncoding, size_of_encode he, he]
  constructor
  · exact fun h => ⟨h 0 (by decide), h 1 (by decide), h 2 (by decide)⟩
  · rintro ⟨h0, h1, h2⟩ k hk
    match k, hk with
    | 0, _ => exact h0
    | 1, _ => exact h1
    | 2, _ => exact h2

/-! The decoder's two ways to succeed. -/

theorem decode_of_parse_halt (hp : parseOpcode m pc = .ok .halt) : decode m pc = .ok .halt := by
  rw [decode, hp]

theorem decode_of_buildInstr (hp : parseOpcode m pc = .ok c) (hc : c ≠ .halt)
    (hb : operandBytes m pc = .ok (b1, b2)) (hi : buildInstr c b1 b2 = some i) : decode m pc = .ok i := by
  have hops : decodeOperands m pc c = .ok i := by rw [decodeOperands, hb]; simp [hi]
  unfold decode
  rw [hp]
  cases c with
  | halt => exact absurd rfl hc
  | load | store | add | sub => exact hops

theorem parseOpcode_eq_ok_halt_iff (m : Memory) (pc : Word) :
    parseOpcode m pc = .ok .halt ↔ pc.toNat + Instr.halt.size ≤ 0x000e ∧ HoldsEncoding m pc.toNat .halt := by
  simp only [parseOpcode_eq_ok_iff, OpClass.ofOpcode?_eq_some_iff, holdsEncoding_halt_iff, exists_eq_right,
    Instr.size, Config.instrLast]
  exact and_congr_left fun _ => by omega

/-- Settles O14: the bytes in the cells take the decoder through the opcode parser, the operand bound and the
constructor, which answers the instruction they encode. -/
theorem decodeInvertsEncode : Obligations.DecodeInvertsEncode := by
  intro i m pc hwf hband hcells
  change HoldsEncoding m pc.toNat i at hcells
  by_cases hi : i = .halt
  · subst hi
    exact decode_of_parse_halt ((parseOpcode_eq_ok_halt_iff m pc).2 ⟨hband, hcells⟩)
  · obtain ⟨op, b1, b2, c, he, hop, hc, hbuild⟩ := exists_buildInstr_encode hwf hi
    obtain ⟨h0, h1, h2⟩ := (holdsEncoding_iff_of_encode pc.toNat he).1 hcells
    rw [size_of_encode he] at hband
    have hparse : parseOpcode m pc = .ok c :=
      (parseOpcode_eq_ok_iff m pc c).2 ⟨by simp only [Config.instrLast]; omega, op, h0, hop⟩
    have hbytes : operandBytes m pc = .ok (b1, b2) :=
      (operandBytes_eq_ok_iff m pc b1 b2).2 ⟨by simp only [Config.instrLast]; omega, h1, h2⟩
    exact decode_of_buildInstr hparse hc hbytes hbuild

/-- Settles O15, by the two ways a decode can succeed: the bytes it read are the encoding of its result. -/
theorem encodeInvertsDecode : Obligations.EncodeInvertsDecode := by
  intro m pc i h
  change _ ∧ HoldsEncoding m pc.toNat i
  rcases decode_ok_cases h with ⟨hparse, rfl⟩ | ⟨c, b1, b2, hparse, hc, hbytes, hbuild⟩
  · exact (parseOpcode_eq_ok_halt_iff m pc).1 hparse
  · obtain ⟨-, op, h0, hop⟩ := (parseOpcode_eq_ok_iff m pc c).1 hparse
    obtain ⟨hlast, h1, h2⟩ := (operandBytes_eq_ok_iff m pc b1 b2).1 hbytes
    obtain ⟨-, he⟩ := encode_of_buildInstr hop hc hbuild
    rw [Config.instrLast] at hlast
    exact ⟨by rw [size_of_encode he]; omega, (holdsEncoding_iff_of_encode pc.toNat he).2 ⟨h0, h1, h2⟩⟩

/-- Settles O11, by running the decoder on the five images. -/
theorem decodeReadsWrittenOutWords : Obligations.DecodeReadsWrittenOutWords := by
  unfold Obligations.DecodeReadsWrittenOutWords
  decide

end Sys2Proof

/-! The machine's invariant (10_state.md section 5): what the decoder and an executed instruction give to each of its
four parts. -/

namespace Sys2Proof

open Sys2Proof.Machine

variable {s t : State} {i : Instr}

/-- R79: the decoder builds well-formed Instructions only. -/
theorem wellFormed_of_decode {m : Memory} {pc : Word} (h : decode m pc = .ok i) : i.WellFormed := by
  rcases decode_ok_cases h with ⟨-, rfl⟩ | ⟨c, b1, b2, hparse, hc, -, hbuild⟩
  · rfl
  · obtain ⟨-, op, -, hop⟩ := (parseOpcode_eq_ok_iff m pc c).1 hparse
    exact (encode_of_buildInstr hop hc hbuild).1

theorem Machine.Memory.writeWord_size {m m' : Memory} {a : Nat} {v : Word} (h : m.writeWord a v = some m') :
    m'.size = m.size := by
  obtain ⟨-, rfl⟩ := (Memory.writeWord_eq_some_iff m m' a v).1 h
  simp

/-- The memory an executed instruction leaves is the one it found, or that memory after a two-cell write. -/
theorem exec_next_mem_cases (h : exec i s = .next t) :
    t.mem = s.mem ∨ ∃ a v, s.mem.writeWord a v = some t.mem := by
  rcases exec_next_cases h with
    ⟨r, addr, -, -, rfl⟩ | ⟨-, rfl⟩ | ⟨r, addr, m, -, hm, rfl⟩ | ⟨r, v, -, rfl, -⟩
  · exact .inl rfl
  · exact .inl rfl
  · exact .inr ⟨_, _, hm⟩
  · exact .inl (by simp)

theorem exec_next_mem_size (h : exec i s = .next t) : t.mem.size = s.mem.size := by
  rcases exec_next_mem_cases h with hm | ⟨a, v, hw⟩
  · rw [hm]
  · exact Memory.writeWord_size hw

theorem exec_next_mem_wf (h : exec i s = .next t) (hs : s.mem.wf) : t.mem.wf := by
  rcases exec_next_mem_cases h with hm | ⟨a, v, hw⟩
  · rwa [hm]
  · exact Memory.writeWord_wf hs hw

/-- An executed instruction enters `faulted` and records an error, or it leaves `err` alone and leaves `fsm` alone but
for `Halt`. -/
theorem exec_next_fsm_err_cases (h : exec i s = .next t) :
    (t.fsm = .faulted ∧ t.err = some .accessBeyondImage) ∨
    ((t.fsm = .halted ∨ t.fsm = s.fsm) ∧ t.err = s.err) := by
  rcases exec_next_cases h with
    ⟨r, addr, -, -, rfl⟩ | ⟨-, rfl⟩ | ⟨r, addr, m, -, -, rfl⟩ | ⟨r, v, -, rfl, -⟩
  · exact .inl ⟨rfl, rfl⟩
  · exact .inr ⟨.inl rfl, rfl⟩
  · exact .inr ⟨.inr rfl, rfl⟩
  · exact .inr ⟨.inr (by simp), by simp⟩

/-- R99: an executed instruction adds at most itself to the trace. -/
theorem mem_trace_of_exec_next {j : Instr} (h : exec i s = .next t) (hj : j ∈ t.trace) : j ∈ s.trace ∨ j = i := by
  rcases exec_next_fsm_trace_cases h with ⟨-, ht⟩ | ⟨rfl, -, -, -, ht⟩ | ⟨-, -, ht⟩
  · exact .inl (ht ▸ hj)
  all_goals simpa [ht] using hj

theorem takeFault_keeps_machineInv (hs : MachineInv s) (k : ErrorKind) : MachineInv (s.takeFault k) :=
  ⟨hs.image, hs.memory, by simp, hs.executed⟩

/-- A well-formed instruction executed in `running` keeps the invariant. -/
theorem exec_keeps_machineInv (hs : MachineInv s) (hf : s.fsm = .running) (hi : i.WellFormed)
    (h : exec i s = .next t) : MachineInv t where
  image := exec_next_mem_size h ▸ hs.image
  memory := exec_next_mem_wf h hs.memory
  error := by
    have herr : s.err = none := hs.error.2 (by simp [hf])
    rcases exec_next_fsm_err_cases h with ⟨hf', he'⟩ | ⟨hf' | hf', he'⟩ <;> simp [hf', he', herr, hf]
  executed j hj := by
    rcases mem_trace_of_exec_next h hj with hj | rfl
    · exact hs.executed j hj
    · exact hi

/-- Settles O42, by the three ways a step can end: nothing done, a decode failure taken as a fault, a decoded and so
well-formed instruction executed. -/
theorem stepKeepsMachineInv : Obligations.StepKeepsMachineInv := by
  intro s t hs h
  rcases step_next_cases h with ⟨-, rfl⟩ | ⟨hf, -, ⟨k, -, rfl⟩ | ⟨i, hd, he⟩⟩
  · exact hs
  · exact takeFault_keeps_machineInv hs k
  · exact exec_keeps_machineInv hs hf (wellFormed_of_decode hd) he

end Sys2Proof

/-! The decoder's checks in their order (40_decoder.md R72 to R78): what each part can fail with, and the validation of
the operand bytes, read off the encoder. -/

namespace Sys2Proof

open Sys2Proof.Machine (Memory)

variable {m : Memory} {pc : Word} {i : Instr} {c : OpClass} {op b1 b2 : Byte} {k : ErrorKind}

/-! What each part of the decoder can fail with. -/

theorem fetchByte_eq_error_iff (m : Memory) (a : Nat) (k : ErrorKind) :
    fetchByte m a = .error k ↔ m.cell? a = none ∧ k = .accessBeyondImage := by
  unfold fetchByte
  cases m.cell? a <;> simp [eq_comm]

/-- R58: the opcode bytes without a class are those that are none of the five. -/
theorem OpClass.ofOpcode?_eq_none_iff (op : Byte) :
    OpClass.ofOpcode? op = none ↔ op ≠ 0x01 ∧ op ≠ 0x02 ∧ op ≠ 0x03 ∧ op ≠ 0x04 ∧ op ≠ 0xff := by
  constructor
  · intro h
    refine ⟨?_, ?_, ?_, ?_, ?_⟩ <;> (rintro rfl; cases h)
  · rintro ⟨h1, h2, h3, h4, h5⟩
    rw [OpClass.ofOpcode?, if_neg h1, if_neg h2, if_neg h3, if_neg h4, if_neg h5]

/-- All that the opcode parser can fail with: the bound of step 1, a missing cell, an unknown opcode byte. -/
theorem parseOpcode_error_cases (h : parseOpcode m pc = .error k) :
    (0x000d < pc.toNat ∧ k = .instructionOutOfBounds) ∨
    (m.cell? pc.toNat = none ∧ k = .accessBeyondImage) ∨
    ∃ op, m.cell? pc.toNat = some op ∧ OpClass.ofOpcode? op = none ∧ k = .unknownInstruction := by
  unfold parseOpcode at h
  split at h
  · rename_i hpc
    exact .inl ⟨hpc, (Except.error.inj h).symm⟩
  · split at h
    · rename_i k' hf
      obtain rfl := Except.error.inj h
      exact .inr (.inl ((fetchByte_eq_error_iff _ _ _).1 hf))
    · rename_i op hf
      split at h
      · rename_i hop
        exact .inr (.inr ⟨op, (fetchByte_eq_ok_iff _ _ _).1 hf, hop, (Except.error.inj h).symm⟩)
      · cases h

theorem parseOpcode_of_outside (hpc : 0x000d < pc.toNat) : parseOpcode m pc = .error .instructionOutOfBounds :=
  if_pos hpc

theorem parseOpcode_of_unknown (hpc : pc.toNat ≤ 0x000d) (h0 : m.cell? pc.toNat = some op)
    (hop : OpClass.ofOpcode? op = none) : parseOpcode m pc = .error .unknownInstruction := by
  have hf : fetchByte m pc.toNat = .ok op := (fetchByte_eq_ok_iff _ _ _).2 h0
  rw [parseOpcode, if_neg (Nat.not_lt.2 hpc), hf]
  simp only [hop]

theorem parseOpcode_of_known (hpc : pc.toNat ≤ 0x000d) (h0 : m.cell? pc.toNat = some op)
    (hop : OpClass.ofOpcode? op = some c) : parseOpcode m pc = .ok c :=
  (parseOpcode_eq_ok_iff m pc c).2 ⟨hpc, op, h0, hop⟩

/-- All that the operand bound can fail with: the bound of step 4, a missing operand cell. -/
theorem operandBytes_error_cases (h : operandBytes m pc = .error k) :
    (0x000d < pc.toNat + 2 ∧ k = .instructionOutOfBounds) ∨ k = .accessBeyondImage := by
  unfold operandBytes at h
  split at h
  · rename_i hpc
    exact .inl ⟨hpc, (Except.error.inj h).symm⟩
  · split at h
    · cases h
    · exact .inr (Except.error.inj h).symm

theorem operandBytes_of_outside (hpc : 0x000d < pc.toNat + 2) :
    operandBytes m pc = .error .instructionOutOfBounds := if_pos hpc

theorem decode_of_parse_error (hp : parseOpcode m pc = .error k) : decode m pc = .error k := by
  rw [decode, hp]

theorem decode_of_parse_operands (hp : parseOpcode m pc = .ok c) (hc : c ≠ .halt) :
    decode m pc = decodeOperands m pc c := by
  rw [decode, hp]
  cases c with
  | halt => exact absurd rfl hc
  | load | store | add | sub => rfl

theorem decodeOperands_of_bound_error (hb : operandBytes m pc = .error k) : decodeOperands m pc c = .error k := by
  rw [decodeOperands, hb]

theorem decodeOperands_of_buildInstr_none (hb : operandBytes m pc = .ok (b1, b2)) (hi : buildInstr c b1 b2 = none) :
    decodeOperands m pc c = .error .paramMismatchForInstruction := by
  rw [decodeOperands, hb]
  simp only [hi]

/-- All that steps 4 and 5 can fail with. -/
theorem decodeOperands_error_cases (h : decodeOperands m pc c = .error k) :
    (0x000d < pc.toNat + 2 ∧ k = .instructionOutOfBounds) ∨
    k = .accessBeyondImage ∨ k = .paramMismatchForInstruction := by
  unfold decodeOperands at h
  split at h
  · rename_i k' hb
    obtain rfl := Except.error.inj h
    exact (operandBytes_error_cases hb).imp_right .inl
  · split at h
    · cases h
    · exact .inr (.inr (Except.error.inj h).symm)

/-! Steps 1 to 4. -/

/-- Settles O4: step 1 fails first, and below the bound neither a missing cell nor an unknown opcode has this kind. -/
theorem decodeOutsideInstructionBandFails : Obligations.DecodeOutsideInstructionBandFails := by
  intro m pc
  refine ⟨fun hpc => decode_of_parse_error (parseOpcode_of_outside hpc), fun hpc h => ?_⟩
  rcases parseOpcode_error_cases h with ⟨hlt, -⟩ | ⟨-, hk⟩ | ⟨op, -, -, hk⟩
  · omega
  · cases hk
  · cases hk

/-- Settles O5: for a known opcode the parser passes, and no later check fails with this kind. -/
theorem decodeFailsOnUnknownOpcode : Obligations.DecodeFailsOnUnknownOpcode := by
  intro m pc op hpc h0
  rw [← OpClass.ofOpcode?_eq_none_iff]
  refine ⟨fun h => ?_, fun hop => decode_of_parse_error (parseOpcode_of_unknown hpc h0 hop)⟩
  by_contra hop
  obtain ⟨c, hop⟩ := Option.ne_none_iff_exists'.1 hop
  have hparse : parseOpcode m pc = .ok c := parseOpcode_of_known hpc h0 hop
  by_cases hc : c = .halt
  · subst hc
    rw [decode_of_parse_halt hparse] at h
    cases h
  · rw [decode_of_parse_operands hparse hc] at h
    rcases decodeOperands_error_cases h with ⟨-, hk⟩ | hk | hk <;> cases hk

/-- Settles O6: the opcode parser alone decides `Halt`. -/
theorem decodeHaltReadsNoOperands : Obligations.DecodeHaltReadsNoOperands :=
  fun _ _ hpc h0 => decode_of_parse_halt (parseOpcode_of_known hpc h0 rfl)

theorem OpClass.exists_of_threeByte (hop : op = 0x01 ∨ op = 0x02 ∨ op = 0x03 ∨ op = 0x04) :
    ∃ c, OpClass.ofOpcode? op = some c ∧ c ≠ .halt := by
  rcases hop with rfl | rfl | rfl | rfl
  · exact ⟨.load, rfl, nofun⟩
  · exact ⟨.store, rfl, nofun⟩
  · exact ⟨.add, rfl, nofun⟩
  · exact ⟨.sub, rfl, nofun⟩

/-- Settles O7: past the opcode parser only the operand bound fails with this kind. -/
theorem decodeBoundsOperandAddresses : Obligations.DecodeBoundsOperandAddresses := by
  intro m pc op hpc h0 hop
  obtain ⟨c, hop, hc⟩ := OpClass.exists_of_threeByte hop
  rw [decode_of_parse_operands (parseOpcode_of_known hpc h0 hop) hc]
  refine ⟨fun h => ?_, fun hlt => decodeOperands_of_bound_error (operandBytes_of_outside hlt)⟩
  rcases decodeOperands_error_cases h with ⟨hlt, -⟩ | hk | hk
  · exact hlt
  · cases hk
  · cases hk

/-! Step 5: the operand bytes of an instruction that lies in the band. -/

theorem Reg.toNat_id_le (r : Reg) : r.id.toNat ≤ 2 := by cases r <;> decide

/-- R12: the bytes up to `0x02` are the register identifiers. -/
theorem Reg.exists_id_eq (hb : b1.toNat ≤ 2) : ∃ r : Reg, r.id = b1 := by
  have hcases : b1 = 0x00 ∨ b1 = 0x01 ∨ b1 = 0x02 := by bv_omega
  rcases hcases with rfl | rfl | rfl
  · exact ⟨.pc, rfl⟩
  · exact ⟨.gp1, rfl⟩
  · exact ⟨.gp2, rfl⟩

/-- Format RA under the opcode `0x01`, read backwards (R52). -/
theorem exists_loadWord_of_encode (he : encode i = [0x01, b1, b2]) : ∃ r, r.id = b1 ∧ i = .loadWord r b2 := by
  cases i with
  | loadWord r addr => cases he; exact ⟨r, rfl, rfl⟩
  | _ => cases he

/-- Format RA under the opcode `0x02`, read backwards (R52). -/
theorem exists_storeWord_of_encode (he : encode i = [0x02, b1, b2]) : ∃ r, r.id = b1 ∧ i = .storeWord r b2 := by
  cases i with
  | storeWord r addr => cases he; exact ⟨r, rfl, rfl⟩
  | _ => cases he

/-- Format RR under the opcode `0x03`, read backwards (R53). -/
theorem exists_add_of_encode (he : encode i = [0x03, b1, b2]) : ∃ a b, a.id = b1 ∧ b.id = b2 ∧ i = .add a b := by
  cases i with
  | add a b => cases he; exact ⟨a, b, rfl, rfl, rfl⟩
  | _ => cases he

/-- Format RR under the opcode `0x04`, read backwards (R53). -/
theorem exists_sub_of_encode (he : encode i = [0x04, b1, b2]) : ∃ a b, a.id = b1 ∧ b.id = b2 ∧ i = .sub a b := by
  cases i with
  | sub a b => cases he; exact ⟨a, b, rfl, rfl, rfl⟩
  | _ => cases he

/-- Three bytes that stand in the band and encode a well-formed instruction decode to it. -/
theorem decode_of_encode (hwf : i.WellFormed) (he : encode i = [op, b1, b2]) (hpc : pc.toNat ≤ 0x000b)
    (h0 : m.cell? pc.toNat = some op) (h1 : m.cell? (pc.toNat + 1) = some b1)
    (h2 : m.cell? (pc.toNat + 2) = some b2) : decode m pc = .ok i :=
  decodeInvertsEncode i m pc hwf (by rw [size_of_encode he]; omega)
    ((holdsEncoding_iff_of_encode pc.toNat he).2 ⟨h0, h1, h2⟩)

/-- Three bytes that stand in the band under a three-byte opcode and encode no well-formed instruction fail the
operand validation: whatever the constructor answered would be encoded by them. -/
theorem decode_paramMismatch_of_no_encoding (hop : OpClass.ofOpcode? op = some c) (hc : c ≠ .halt)
    (hpc : pc.toNat ≤ 0x000b) (h0 : m.cell? pc.toNat = some op) (h1 : m.cell? (pc.toNat + 1) = some b1)
    (h2 : m.cell? (pc.toNat + 2) = some b2) (hno : ∀ i : Instr, i.WellFormed → encode i ≠ [op, b1, b2]) :
    decode m pc = .error .paramMismatchForInstruction := by
  have hbytes : operandBytes m pc = .ok (b1, b2) :=
    (operandBytes_eq_ok_iff m pc b1 b2).2 ⟨by simp only [Config.instrLast]; omega, h1, h2⟩
  have hbuild : buildInstr c b1 b2 = none := by
    refine Option.eq_none_iff_forall_ne_some.2 fun i hi => ?_
    obtain ⟨hwf, he⟩ := encode_of_buildInstr hop hc hi
    exact hno i hwf he
  rw [decode_of_parse_operands (parseOpcode_of_known (by omega) h0 hop) hc]
  exact decodeOperands_of_buildInstr_none hbytes hbuild

/-- R76, for an opcode whose encodings are those of `mk a b` over all registers `a` and `b`. -/
theorem decode_registerPair {mk : Reg → Reg → Instr} (hop : OpClass.ofOpcode? op = some c) (hc : c ≠ .halt)
    (hmk : ∀ a b, (mk a b).WellFormed ∧ encode (mk a b) = [op, a.id, b.id])
    (hinv : ∀ i, encode i = [op, b1, b2] → ∃ a b, a.id = b1 ∧ b.id = b2 ∧ i = mk a b)
    (hpc : pc.toNat ≤ 0x000b) (h0 : m.cell? pc.toNat = some op) (h1 : m.cell? (pc.toNat + 1) = some b1)
    (h2 : m.cell? (pc.toNat + 2) = some b2) :
    (b1.toNat ≤ 2 ∧ b2.toNat ≤ 2 → ∃ a b, a.id = b1 ∧ b.id = b2 ∧ decode m pc = .ok (mk a b)) ∧
    (¬ (b1.toNat ≤ 2 ∧ b2.toNat ≤ 2) → decode m pc = .error .paramMismatchForInstruction) := by
  constructor
  · rintro ⟨hb1, hb2⟩
    obtain ⟨a, rfl⟩ := Reg.exists_id_eq hb1
    obtain ⟨b, rfl⟩ := Reg.exists_id_eq hb2
    obtain ⟨hwf, he⟩ := hmk a b
    exact ⟨a, b, rfl, rfl, decode_of_encode hwf he hpc h0 h1 h2⟩
  · intro hids
    refine decode_paramMismatch_of_no_encoding hop hc hpc h0 h1 h2 fun i _ he => hids ?_
    obtain ⟨a, b, rfl, rfl, -⟩ := hinv i he
    exact ⟨a.toNat_id_le, b.toNat_id_le⟩

/-- R77 and R78, for an opcode whose encodings are those of `mk r addr` over all registers `r`, well formed where `addr`
lies in `lo` to `hi`. -/
theorem decode_registerAddress {mk : Reg → Byte → Instr} {lo hi : Nat} (hop : OpClass.ofOpcode? op = some c)
    (hc : c ≠ .halt) (hwf : ∀ r, (mk r b2).WellFormed ↔ lo ≤ b2.toNat ∧ b2.toNat ≤ hi)
    (hmk : ∀ r, encode (mk r b2) = [op, r.id, b2])
    (hinv : ∀ i, encode i = [op, b1, b2] → ∃ r, r.id = b1 ∧ i = mk r b2)
    (hpc : pc.toNat ≤ 0x000b) (h0 : m.cell? pc.toNat = some op) (h1 : m.cell? (pc.toNat + 1) = some b1)
    (h2 : m.cell? (pc.toNat + 2) = some b2) :
    (b1.toNat ≤ 2 ∧ lo ≤ b2.toNat ∧ b2.toNat ≤ hi → ∃ r, r.id = b1 ∧ decode m pc = .ok (mk r b2)) ∧
    (¬ (b1.toNat ≤ 2 ∧ lo ≤ b2.toNat ∧ b2.toNat ≤ hi) → decode m pc = .error .paramMismatchForInstruction) := by
  constructor
  · rintro ⟨hb1, hband⟩
    obtain ⟨r, rfl⟩ := Reg.exists_id_eq hb1
    exact ⟨r, rfl, decode_of_encode ((hwf r).2 hband) (hmk r) hpc h0 h1 h2⟩
  · intro hbad
    refine decode_paramMismatch_of_no_encoding hop hc hpc h0 h1 h2 fun i hi he => hbad ?_
    obtain ⟨r, rfl, rfl⟩ := hinv i he
    exact ⟨r.toNat_id_le, (hwf r).1 hi⟩

/-- Settles O8, by the validation of a register pair for each of the two opcodes. -/
theorem decodeAddSubValidatesRegisters : Obligations.DecodeAddSubValidatesRegisters := by
  intro m pc b1 b2 hpc h1 h2
  constructor
  · intro h0
    exact decode_registerPair (c := .add) rfl nofun (fun _ _ => ⟨rfl, rfl⟩) (fun _ => exists_add_of_encode) hpc h0 h1 h2
  · intro h0
    exact decode_registerPair (c := .sub) rfl nofun (fun _ _ => ⟨rfl, rfl⟩) (fun _ => exists_sub_of_encode) hpc h0 h1 h2

/-- Settles O9, by the validation of a register and an address over the input band. -/
theorem decodeLoadWordValidatesOperands : Obligations.DecodeLoadWordValidatesOperands :=
  fun _ _ _ b2 hpc h0 h1 h2 =>
    decode_registerAddress (c := .load) rfl nofun (fun r => Instr.wellFormed_loadWord_iff r b2) (fun _ => rfl)
      (fun _ => exists_loadWord_of_encode) hpc h0 h1 h2

/-- Settles O10, by the validation of a register and an address over the output band. -/
theorem decodeStoreWordValidatesOperands : Obligations.DecodeStoreWordValidatesOperands :=
  fun _ _ _ b2 hpc h0 h1 h2 =>
    decode_registerAddress (c := .store) rfl nofun (fun r => Instr.wellFormed_storeWord_iff r b2) (fun _ => rfl)
      (fun _ => exists_storeWord_of_encode) hpc h0 h1 h2

end Sys2Proof

/-! The engine cycle (41_engine_cycle.md R91, R100): what a running engine does over an image, and the output word that
`result()` reads. -/

namespace Sys2Proof.Machine

variable {s t : State} {i : Instr}

/-! The step. -/

/-- R101: in `running`, a step is one cycle. -/
theorem step_of_running (hf : s.fsm = .running) : step s = cycle s := by
  unfold step engineStep
  rw [hf]

/-- R91: over an image, a cycle executes what decodes at PC. -/
theorem cycle_of_decode_ok (hsize : Config.minImageSize ≤ s.mem.size) (hd : decode s.mem s.pc = .ok i) :
    cycle s = exec i s := by
  unfold cycle
  rw [if_neg (not_lt.2 hsize), hd]

/-- Settles O18: a step of a running engine is a cycle, and the cycle runs what was decoded. -/
theorem stepRunsDecodedInstruction : Obligations.StepRunsDecodedInstruction := by
  intro s i hf hsize hd _
  rw [step_of_running hf, cycle_of_decode_ok hsize hd]

/-! The two-cell access, read after write (20_memory.md R35). -/

/-- The two bytes a store writes are the word a load puts together. -/
theorem wordOfBytes_lowByte_highByte (v : Word) : wordOfBytes (lowByte v) (highByte v) = v := by
  apply BitVec.eq_of_toNat_eq
  rw [toNat_wordOfBytes, toNat_lowByte, toNat_highByte, Nat.mod_add_div]

theorem Memory.cell?_writeWord {m m' : Memory} {a : Nat} {v : Word} (h : m.writeWord a v = some m') (x : Nat) :
    m'.cell? x =
      if x = a then some (lowByte v) else if x = a + 1 then some (highByte v) else m.cell? x := by
  obtain ⟨hlt, rfl⟩ := (Memory.writeWord_eq_some_iff m m' a v).1 h
  rw [Memory.cell?_setByte, Memory.cell?_setByte, Memory.setByte_size]
  by_cases hx : x = a
  · simp [hx, Nat.lt_of_succ_lt hlt]
  · simp [hx, hlt]

theorem Memory.readWord_of_writeWord {m m' : Memory} {a : Nat} {v : Word} (h : m.writeWord a v = some m') :
    m'.readWord a = some v := by
  have hlo : m'.cell? a = some (lowByte v) := by simp [Memory.cell?_writeWord h]
  have hhi : m'.cell? (a + 1) = some (highByte v) := by simp [Memory.cell?_writeWord h]
  exact (Memory.readWord_eq_some_iff m' a v).2 ⟨_, _, hlo, hhi, (wordOfBytes_lowByte_highByte v).symm⟩

/-! Stores and the result. -/

/-- R106: a store to two cells that exist writes them and retires. -/
theorem exec_storeWord_of_lt (r : Reg) {addr : Byte} (h : cellAddress addr + 1 < s.mem.size) :
    ∃ m, s.mem.writeWord (cellAddress addr) (s.readReg r) = some m ∧
      exec (.storeWord r addr) s = .next (State.retire { s with mem := m } (.storeWord r addr)) := by
  cases hw : s.mem.writeWord (cellAddress addr) (s.readReg r) with
  | none => exact absurd ((Memory.writeWord_eq_none_iff _ _ _).1 hw) (not_le.2 h)
  | some m => exact ⟨m, rfl, by rw [exec, execStoreWord, hw]⟩

/-- R34: no instruction but a store writes memory. -/
theorem exec_next_mem_of_not_store (hi : ∀ r addr, i ≠ .storeWord r addr) (h : exec i s = .next t) :
    t.mem = s.mem := by
  rcases exec_next_cases h with
    ⟨r, addr, -, -, rfl⟩ | ⟨-, rfl⟩ | ⟨r, addr, m, hstore, -, -⟩ | ⟨r, v, -, rfl, -⟩
  · exact State.takeFault_mem s _
  · exact State.record_mem s .halt
  · exact absurd hstore (hi r addr)
  · rw [State.retire_mem, State.writeReg_mem]

/-- R100: the result is a function of the memory alone. -/
theorem State.result_eq_of_mem_eq (h : t.mem = s.mem) : t.result = s.result := by
  rw [State.result, State.result, h]

/-- Settles O34: the word `result()` reads is the one a store at `0x0e` wrote, and an instruction that is no store
leaves the memory it reads as it was. -/
theorem storeMakesResult : Obligations.StoreMakesResult := by
  constructor
  · intro s r hsize
    have hcells : cellAddress 0x0e + 1 < s.mem.size := Nat.lt_of_lt_of_le (by decide) hsize
    obtain ⟨m, hw, he⟩ := exec_storeWord_of_lt r hcells
    exact ⟨_, he, Memory.readWord_of_writeWord hw⟩
  · intro s t i hi h
    exact State.result_eq_of_mem_eq (exec_next_mem_of_not_store hi h)

end Sys2Proof.Machine

/-! The meanings of `LoadWord` and `StoreWord` (42_load_store.md R105 to R107): the state each leaves where its two
cells exist, and when a well-formed one finds them. -/

namespace Sys2Proof.Machine

variable {s : State} {m : Memory} {r : Reg} {addr lo hi : Byte}

/-! The advance and the destination. -/

/-- R94: PC after an executed instruction, the wrap included (log entry 3). -/
theorem State.toNat_retire_pc (s : State) (i : Instr) :
    (s.retire i).pc.toNat = (s.pc.toNat + i.size) % 65536 := by
  rw [State.retire_pc, BitVec.toNat_add, BitVec.toNat_ofNat, Nat.add_mod_mod]

/-- A write to GP1 or GP2 leaves PC alone. -/
theorem State.writeReg_pc_of_ne (s : State) (v : Word) (hr : r ≠ .pc) : (s.writeReg r v).pc = s.pc := by
  rw [← State.readReg_pc, State.readReg_writeReg, if_neg hr.symm, State.readReg_pc]

/-! `LoadWord`. -/

/-- R105: a load of two cells that exist puts their word into the destination and retires. -/
theorem exec_loadWord_of_cells (s : State) (r : Reg) (hlo : s.mem.cell? (cellAddress addr) = some lo)
    (hhi : s.mem.cell? (cellAddress addr + 1) = some hi) :
    exec (.loadWord r addr) s = .next ((s.writeReg r (wordOfBytes lo hi)).retire (.loadWord r addr)) := by
  have hread : s.mem.readWord (cellAddress addr) = some (wordOfBytes lo hi) :=
    (Memory.readWord_eq_some_iff _ _ _).2 ⟨lo, hi, hlo, hhi, rfl⟩
  rw [exec, execLoadWord, hread]

/-- R107: over an image, the one well-formed load that misses a cell is at `0x13` with 20 cells (log entry 7). -/
theorem loadWord_cell_missing_iff (hwf : (Instr.loadWord r addr).WellFormed) (hsize : 20 ≤ m.size) :
    m.size ≤ cellAddress addr + 1 ↔ addr = 0x13 ∧ m.size = 20 := by
  obtain ⟨hlow, hhigh⟩ := (Instr.wellFormed_loadWord_iff r addr).1 hwf
  have haddr : addr = 0x13 ↔ addr.toNat = 0x13 := BitVec.toNat_inj.symm
  rw [cellAddress_eq, haddr]
  omega

/-- Settles O21: the state after the load is the destination write, retired; the two cells are missed at `0x13` with 20
cells only. -/
theorem loadWordReadsLittleEndianWord : Obligations.LoadWordReadsLittleEndianWord := by
  constructor
  · intro s r addr lo hi hr hlo hhi
    refine ⟨_, exec_loadWord_of_cells s r hlo hhi, ?value, ?pc, ?frame, by simp, by simp, by simp, by simp⟩
    case value => rw [State.readReg_retire _ _ hr, State.readReg_writeReg, if_pos rfl, toNat_wordOfBytes]
    case pc => rw [State.toNat_retire_pc, State.writeReg_pc_of_ne _ _ hr, Instr.size]
    case frame =>
      intro q hq hqpc
      rw [State.readReg_retire _ _ hqpc, State.readReg_writeReg, if_neg hq]
  · intro m r addr hwf hsize hcell
    have hlt : cellAddress addr + 1 < m.size := by
      rw [← not_le, loadWord_cell_missing_iff hwf hsize, not_and_or]
      exact hcell
    exact ⟨(m.cell?_isSome_iff _).2 (Nat.lt_of_succ_lt hlt), (m.cell?_isSome_iff _).2 hlt⟩

/-! `StoreWord`. -/

/-- R78, R106: over an image, a well-formed store finds both cells. -/
theorem storeWord_cells_exist (hwf : (Instr.storeWord r addr).WellFormed) (hsize : 20 ≤ m.size) :
    cellAddress addr + 1 < m.size := by
  obtain ⟨-, hhigh⟩ := (Instr.wellFormed_storeWord_iff r addr).1 hwf
  rw [cellAddress_eq]
  omega

/-- Settles O24: the state after the store is the two-cell write, retired, and that write is known cell by cell. -/
theorem storeWordWritesLittleEndianBytes : Obligations.StoreWordWritesLittleEndianBytes := by
  refine fun s r addr => ⟨fun hlt => ?_, storeWord_cells_exist⟩
  obtain ⟨m, hw, he⟩ := exec_storeWord_of_lt r hlt
  refine ⟨_, he, ?low, ?high, ?others, Memory.writeWord_size hw, State.toNat_retire_pc _ _, rfl, rfl, rfl, rfl⟩
  case low => rw [State.retire_mem, Memory.cell?_writeWord hw, if_pos rfl, lowByte]
  case high => rw [State.retire_mem, Memory.cell?_writeWord hw, if_neg (Nat.succ_ne_self _), if_pos rfl, highByte]
  case others =>
    intro a ha ha'
    rw [State.retire_mem, Memory.cell?_writeWord hw, if_neg ha, if_neg ha']

end Sys2Proof.Machine

/-! The meanings of `Add` and `Sub` (43_add_sub.md R115, R116): both put a word into the destination and retire, so one
lemma gives their common frame and each statement adds what its word is. -/

namespace Sys2Proof.Machine

/-! The destination write, retired. -/

/-- R14, R94: an instruction whose meaning is to put `v` into GP1 or GP2 and retire writes that register and the
advanced PC, and nothing else but the trace. -/
theorem exec_next_of_register_write {s : State} {i : Instr} {a : Reg} {v : Word} (ha : a ≠ .pc)
    (he : exec i s = .next ((s.writeReg a v).retire i)) :
    ∃ t, exec i s = .next t ∧
      t.readReg a = v ∧
      t.pc.toNat = (s.pc.toNat + i.size) % 65536 ∧
      (∀ q, q ≠ a → q ≠ .pc → t.readReg q = s.readReg q) ∧
      t.mem = s.mem ∧ t.fsm = s.fsm ∧ t.err = s.err := by
  refine ⟨_, he, ?value, ?pc, ?frame, by simp, by simp, by simp⟩
  case value => rw [State.readReg_retire _ _ ha, State.readReg_writeReg, if_pos rfl]
  case pc => rw [State.toNat_retire_pc, State.writeReg_pc_of_ne _ _ ha]
  case frame =>
    intro q hq hqpc
    rw [State.readReg_retire _ _ hqpc, State.readReg_writeReg, if_neg hq]

/-! The two meanings. -/

/-- R115, R118: the sum of the two registers as they were, PC still at the instruction's own address. -/
theorem exec_add (s : State) (a b : Reg) :
    exec (.add a b) s = .next ((s.writeReg a (s.readReg a + s.readReg b)).retire (.add a b)) := rfl

/-- R116, R118: the difference of the two registers as they were, PC still at the instruction's own address. -/
theorem exec_sub (s : State) (a b : Reg) :
    exec (.sub a b) s = .next ((s.writeReg a (s.readReg a - s.readReg b)).retire (.sub a b)) := rfl

/-- Settles O26: the register write of `Add`, with the word written read as a number. -/
theorem addWritesWrappedSum : Obligations.AddWritesWrappedSum := by
  intro s a b ha
  obtain ⟨t, he, hvalue, hpc, hframe, hmem, hfsm, herr⟩ := exec_next_of_register_write ha (exec_add s a b)
  have hsum : (t.readReg a).toNat = ((s.readReg a).toNat + (s.readReg b).toNat) % 65536 := by
    rw [hvalue, BitVec.toNat_add]
  exact ⟨t, he, hsum, hpc, hframe, by rw [hmem], by simp [hmem], hfsm, herr⟩

/-- Settles O28: the register write of `Sub`, with the word written read as a number. -/
theorem subWritesWrappedDifference : Obligations.SubWritesWrappedDifference := by
  intro s a b ha
  obtain ⟨t, he, hvalue, hpc, hframe, hmem, hfsm, herr⟩ := exec_next_of_register_write ha (exec_sub s a b)
  have hdiff : (t.readReg a).toNat = ((s.readReg a).toNat + (65536 - (s.readReg b).toNat)) % 65536 := by
    rw [hvalue, BitVec.toNat_sub, Nat.add_comm]
  exact ⟨t, he, hdiff, hpc, hframe, by rw [hmem], by simp [hmem], hfsm, herr⟩

end Sys2Proof.Machine

/-! The meaning of `Halt` (44_halt.md R127): it is the only instruction that stops the engine, so the step that enters
`halted` is the one that decoded it. -/

namespace Sys2Proof.Machine

variable {s t : State} {i : Instr}

/-- R127: of the instructions executed while the engine is not yet `halted`, exactly `Halt` makes it so. -/
theorem exec_next_halted_iff (hf : s.fsm ≠ .halted) (h : exec i s = .next t) : t.fsm = .halted ↔ i = .halt := by
  constructor
  · intro hhalted
    rcases exec_next_fsm_trace_cases h with ⟨hfaulted, -⟩ | ⟨hi, -⟩ | ⟨-, hkept, -⟩
    · exact absurd (hhalted.symm.trans hfaulted) nofun
    · exact hi
    · exact absurd (hkept.symm.trans hhalted) hf
  · rintro rfl
    cases h
    rfl

/-- Settles O37, by the two ways a step of a running engine can end: a decode failure enters `faulted` and decoded no
`Halt`, and a decoded instruction enters `halted` exactly when it is `Halt`. -/
theorem onlyHaltEntersHalted : Obligations.OnlyHaltEntersHalted := by
  intro s t hf h
  rcases step_next_cases h with ⟨hterminal, -⟩ | ⟨-, -, ⟨k, hd, rfl⟩ | ⟨i, hd, he⟩⟩
  · exact absurd hf hterminal
  · simp [hd]
  · rw [exec_next_halted_iff (by simp [hf]) he, hd, Except.ok.injEq]

end Sys2Proof.Machine

/-! What a decode depends on and what it can answer (40_decoder.md R70, R79, R82, R84; 20_memory.md R33). -/

namespace Sys2Proof

open Sys2Proof.Machine

variable {m n : Memory} {pc : Word} {i : Instr} {c : OpClass} {op b1 b2 : Byte} {k : ErrorKind}

/-! The cells a decode reads. -/

/-- The opcodes with operands, read backwards. -/
theorem OpClass.threeByte_of_ofOpcode? (hop : OpClass.ofOpcode? op = some c) (hc : c ≠ .halt) :
    op = 0x01 ∨ op = 0x02 ∨ op = 0x03 ∨ op = 0x04 := by
  obtain rfl := (OpClass.ofOpcode?_eq_some_iff op c).1 hop
  cases c with
  | halt => exact absurd rfl hc
  | load | store | add | sub => simp

theorem fetchByte_congr {a : Nat} (h : m.cell? a = n.cell? a) : fetchByte m a = fetchByte n a := by
  rw [fetchByte, fetchByte, h]

/-- The opcode parser reads the cell at PC, and only below the bound of step 1. -/
theorem parseOpcode_congr (h : pc.toNat ≤ 0x000d → m.cell? pc.toNat = n.cell? pc.toNat) :
    parseOpcode m pc = parseOpcode n pc := by
  by_cases hpc : 0x000d < pc.toNat
  · rw [parseOpcode_of_outside hpc, parseOpcode_of_outside hpc]
  · rw [parseOpcode, parseOpcode, fetchByte_congr (h (Nat.not_lt.1 hpc))]

/-- The operands are read from the two cells after PC, and only below the bound of step 4. -/
theorem operandBytes_congr
    (h : pc.toNat ≤ 0x000b →
      m.cell? (pc.toNat + 1) = n.cell? (pc.toNat + 1) ∧ m.cell? (pc.toNat + 2) = n.cell? (pc.toNat + 2)) :
    operandBytes m pc = operandBytes n pc := by
  by_cases hpc : 0x000d < pc.toNat + 2
  · rw [operandBytes_of_outside hpc, operandBytes_of_outside hpc]
  · obtain ⟨h1, h2⟩ := h (by omega)
    rw [operandBytes, operandBytes, fetchByte_congr h1, fetchByte_congr h2]

/-- Settles O13: the opcode parser answers alike over the two memories, and where it answers an opcode with operands the
operand bytes are read alike. -/
theorem decodeReadsOnlyInstructionBand : Obligations.DecodeReadsOnlyInstructionBand := by
  intro m n pc hopcode hoperands
  have hparse : parseOpcode m pc = parseOpcode n pc := parseOpcode_congr hopcode
  cases hp : parseOpcode m pc with
  | error k => rw [decode_of_parse_error hp, decode_of_parse_error (hparse ▸ hp)]
  | ok c =>
    by_cases hc : c = .halt
    · subst hc
      rw [decode_of_parse_halt hp, decode_of_parse_halt (hparse ▸ hp)]
    · obtain ⟨-, op, h0, hop⟩ := (parseOpcode_eq_ok_iff m pc c).1 hp
      have hbytes : operandBytes m pc = operandBytes n pc :=
        operandBytes_congr fun hpc => hoperands op hpc h0 (OpClass.threeByte_of_ofOpcode? hop hc)
      rw [decode_of_parse_operands hp hc, decode_of_parse_operands (hparse ▸ hp) hc, decodeOperands, decodeOperands,
        hbytes]

/-- R33: memories with the same instruction band decode alike everywhere. -/
theorem decode_congr_of_band (h : ∀ a, a ≤ 0x0d → m.cell? a = n.cell? a) (pc : Word) : decode m pc = decode n pc :=
  decodeReadsOnlyInstructionBand m n pc (fun hpc => h _ hpc)
    (fun _ hpc _ _ => ⟨h _ (by omega), h _ (by omega)⟩)

/-! What a decode over an image answers. -/

theorem Machine.Memory.exists_cell?_of_lt {a : Nat} (h : a < m.size) : ∃ b, m.cell? a = some b :=
  Option.isSome_iff_exists.1 ((m.cell?_isSome_iff a).2 h)

/-- Over an image the operand bytes exist wherever the bound of step 4 passes. -/
theorem operandBytes_of_inside (hsize : 20 ≤ m.size) (hpc : pc.toNat ≤ 0x000b) :
    ∃ b1 b2, operandBytes m pc = .ok (b1, b2) := by
  obtain ⟨b1, h1⟩ := Memory.exists_cell?_of_lt (m := m) (a := pc.toNat + 1) (by omega)
  obtain ⟨b2, h2⟩ := Memory.exists_cell?_of_lt (m := m) (a := pc.toNat + 2) (by omega)
  exact ⟨b1, b2, (operandBytes_eq_ok_iff m pc b1 b2).2 ⟨by simp only [Config.instrLast]; omega, h1, h2⟩⟩

theorem parseOpcode_ne_accessBeyondImage (hsize : 20 ≤ m.size) : parseOpcode m pc ≠ .error .accessBeyondImage := by
  intro h
  by_cases hpc : 0x000d < pc.toNat
  · rw [parseOpcode_of_outside hpc] at h
    cases h
  · obtain ⟨op, h0⟩ := Memory.exists_cell?_of_lt (m := m) (a := pc.toNat) (by omega)
    rcases parseOpcode_error_cases h with ⟨hlt, -⟩ | ⟨hnone, -⟩ | ⟨_, -, -, hk⟩
    · exact hpc hlt
    · rw [h0] at hnone
      cases hnone
    · cases hk

theorem decodeOperands_ne_accessBeyondImage (hsize : 20 ≤ m.size) :
    decodeOperands m pc c ≠ .error .accessBeyondImage := by
  by_cases hpc : 0x000d < pc.toNat + 2
  · simp [decodeOperands_of_bound_error (operandBytes_of_outside hpc)]
  · obtain ⟨b1, b2, hb⟩ := operandBytes_of_inside hsize (pc := pc) (by omega)
    cases hi : buildInstr c b1 b2 with
    | none => simp [decodeOperands_of_buildInstr_none hb hi]
    | some i => simp [decodeOperands, hb, hi]

/-- R84: every cell a decode reads is a cell of the image, so the engine's own error kind is not the decoder's. -/
theorem decode_ne_accessBeyondImage (hsize : 20 ≤ m.size) : decode m pc ≠ .error .accessBeyondImage := by
  cases hp : parseOpcode m pc with
  | error k =>
    rw [decode_of_parse_error hp]
    rintro ⟨⟩
    exact parseOpcode_ne_accessBeyondImage hsize hp
  | ok c =>
    by_cases hc : c = .halt
    · subst hc
      simp [decode_of_parse_halt hp]
    · rw [decode_of_parse_operands hp hc]
      exact decodeOperands_ne_accessBeyondImage hsize

/-- Settles O12: what decodes is well formed, and of the four error kinds the engine's own is left out over an image. -/
theorem decodeOnImageIsTotal : Obligations.DecodeOnImageIsTotal := by
  intro m pc hsize
  cases hd : decode m pc with
  | ok i => exact .inl ⟨i, rfl, wellFormed_of_decode hd⟩
  | error k =>
    cases k with
    | instructionOutOfBounds => exact .inr (.inl rfl)
    | unknownInstruction => exact .inr (.inr (.inl rfl))
    | paramMismatchForInstruction => exact .inr (.inr (.inr rfl))
    | accessBeyondImage => exact absurd hd (decode_ne_accessBeyondImage hsize)

/-! The well-formed instructions, counted (30_encoding.md R63). -/

/-- The three registers of R12. -/
def allRegs : List Reg := [.pc, .gp1, .gp2]

theorem mem_allRegs (r : Reg) : r ∈ allRegs := by cases r <;> decide

/-- The addresses of the input band (R31). -/
def inputAddresses : List Byte := [0x10, 0x11, 0x12, 0x13]

/-- The addresses of the output band (R31). -/
def outputAddresses : List Byte := [0x0e, 0x0f]

theorem mem_inputAddresses_iff (a : Byte) : a ∈ inputAddresses ↔ 0x10 ≤ a.toNat ∧ a.toNat ≤ 0x13 := by
  simp only [inputAddresses, List.mem_cons, List.not_mem_nil, or_false]
  bv_omega

theorem mem_outputAddresses_iff (a : Byte) : a ∈ outputAddresses ↔ 0x0e ≤ a.toNat ∧ a.toNat ≤ 0x0f := by
  simp only [outputAddresses, List.mem_cons, List.not_mem_nil, or_false]
  bv_omega

/-- R63: 12 loads, 6 stores, 9 additions, 9 subtractions and `Halt`. -/
def wellFormedInstrs : List Instr :=
  (allRegs ×ˢ inputAddresses).map (fun p => .loadWord p.1 p.2) ++
  (allRegs ×ˢ outputAddresses).map (fun p => .storeWord p.1 p.2) ++
  (allRegs ×ˢ allRegs).map (fun p => .add p.1 p.2) ++
  (allRegs ×ˢ allRegs).map (fun p => .sub p.1 p.2) ++ [.halt]

theorem mem_wellFormedInstrs_iff (i : Instr) : i ∈ wellFormedInstrs ↔ i.WellFormed := by
  cases i with
  | loadWord r a => simp [wellFormedInstrs, mem_allRegs, mem_inputAddresses_iff, Instr.wellFormed_loadWord_iff]
  | storeWord r a => simp [wellFormedInstrs, mem_allRegs, mem_outputAddresses_iff, Instr.wellFormed_storeWord_iff]
  | add a b => simp [wellFormedInstrs, mem_allRegs, Instr.WellFormed, Instr.wellFormed]
  | sub a b => simp [wellFormedInstrs, mem_allRegs, Instr.WellFormed, Instr.wellFormed]
  | halt => simp [wellFormedInstrs, Instr.WellFormed, Instr.wellFormed]

/-- Settles O16, by the list of R63. -/
theorem wellFormedInstructionsAreThirtySeven : Obligations.WellFormedInstructionsAreThirtySeven :=
  ⟨wellFormedInstrs, by decide, by decide, mem_wellFormedInstrs_iff⟩

/-! The decoder block. -/

theorem regCode_setWidth (r : Reg) : (regCode r).setWidth 8 = r.id := by cases r <;> rfl

/-- R82: the two operand outputs of an instruction with operands are the operand bytes of its encoding. -/
theorem exists_encode_eq_portFields (hi : i ≠ .halt) :
    ∃ op f1 f2, (portFields i).2 = (some f1, some f2) ∧ encode i = [op, f1.setWidth 8, f2] := by
  cases i with
  | loadWord r addr => exact ⟨0x01, regCode r, addr, rfl, by rw [encode, regCode_setWidth]⟩
  | storeWord r addr => exact ⟨0x02, regCode r, addr, rfl, by rw [encode, regCode_setWidth]⟩
  | add a b => exact ⟨0x03, regCode a, b.id, rfl, by rw [encode, regCode_setWidth]⟩
  | sub a b => exact ⟨0x04, regCode a, b.id, rfl, by rw [encode, regCode_setWidth]⟩
  | halt => exact absurd rfl hi

/-- Settles O17: the codes are those of the instruction or of the error kind, and the operand outputs are the bytes the
decode read, since those encode its result. -/
theorem decoderPortCarriesOperandBytes : Obligations.DecoderPortCarriesOperandBytes := by
  intro m pc
  constructor
  · intro i hd
    rw [decoderPort_of_ok hd]
    refine ⟨rfl, rfl, by cases i <;> rfl, by cases i <;> rfl, fun hi => ?_⟩
    obtain ⟨op, f1, f2, hport, he⟩ := exists_encode_eq_portFields hi
    obtain ⟨-, hholds⟩ := encodeInvertsDecode m pc i hd
    obtain ⟨-, h1, h2⟩ := (holdsEncoding_iff_of_encode pc.toNat he).1 hholds
    exact ⟨⟨f1, by rw [hport], h1⟩, f2, by rw [hport], h2⟩
  · intro k hd
    rw [decoderPort_of_error hd]
    exact ⟨rfl, by cases k <;> rfl⟩

end Sys2Proof

/-! What every step keeps (41_engine_cycle.md R91, R98; 60_exceptions.md R135, R138; 20_memory.md R34): the equations of
a step, when an executed instruction answers, and the frames of fault entry, the cells, the trace and PC. -/

namespace Sys2Proof.Machine

variable {s t : State} {i : Instr} {r : Reg} {addr : Byte} {k : ErrorKind}

/-! The equations of a step. -/

/-- R98: a terminal state absorbs a step. -/
theorem step_of_not_running (hf : s.fsm ≠ .running) : step s = .next s := by
  unfold step engineStep
  cases h : s.fsm with
  | running => exact absurd h hf
  | halted | faulted => rfl

theorem eq_of_step_not_running (hf : s.fsm ≠ .running) (h : step s = .next t) : t = s := by
  rw [step_of_not_running hf] at h
  cases h
  rfl

/-- R92: over an image, a decode failure is taken as a fault. -/
theorem step_of_decode_error (hf : s.fsm = .running) (hsize : 20 ≤ s.mem.size)
    (hd : decode s.mem s.pc = .error k) : step s = .next (s.takeFault k) := by
  rw [step_of_running hf, cycle, if_neg (not_lt.2 hsize), hd]

/-- R91: over an image, what decodes at PC is executed. -/
theorem step_of_decode_ok (hf : s.fsm = .running) (hsize : 20 ≤ s.mem.size)
    (hd : decode s.mem s.pc = .ok i) : step s = exec i s :=
  stepRunsDecodedInstruction s i hf hsize hd (wellFormed_of_decode hd)

/-- R153: a memory that is no image is refused. -/
theorem step_of_short_memory (hf : s.fsm = .running) (hsize : s.mem.size < 20) :
    step s = .refused .imageTooShort := by
  rw [step_of_running hf, cycle, if_pos hsize]

/-! When an executed instruction answers. -/

/-- R107: a load of a missing cell faults. -/
theorem exec_loadWord_of_missing (s : State) (r : Reg) (h : s.mem.size ≤ cellAddress addr + 1) :
    exec (.loadWord r addr) s = .next (s.takeFault .accessBeyondImage) := by
  rw [exec, execLoadWord, (Memory.readWord_eq_none_iff _ _).2 h]

/-- Over an image every well-formed instruction answers a next state: only a store can fail to, and it finds both its
cells. -/
theorem exec_answers (hi : i.WellFormed) (hsize : 20 ≤ s.mem.size) : ∃ t, exec i s = .next t := by
  cases i with
  | loadWord r addr =>
    rcases execLoadWord_cases r addr s with ⟨v, -, he⟩ | ⟨-, he⟩
    · exact ⟨_, he⟩
    · exact ⟨_, he⟩
  | storeWord r addr =>
    obtain ⟨m, -, he⟩ := exec_storeWord_of_lt r (storeWord_cells_exist hi hsize)
    exact ⟨_, he⟩
  | add a b => exact ⟨_, exec_add s a b⟩
  | sub a b => exact ⟨_, exec_sub s a b⟩
  | halt => exact ⟨_, rfl⟩

/-- Settles O35: a terminal state stays, a decode failure faults, and what decodes is well formed, so it answers. -/
theorem stepAnswersOnEveryImage : Obligations.StepAnswersOnEveryImage := by
  intro s hsize
  by_cases hf : s.fsm = .running
  · cases hd : decode s.mem s.pc with
    | error k => exact ⟨_, step_of_decode_error hf hsize hd⟩
    | ok i =>
      rw [step_of_decode_ok hf hsize hd]
      exact exec_answers (wellFormed_of_decode hd) hsize
  · exact ⟨s, step_of_not_running hf⟩

/-! Fault entry. -/

/-- The one executed instruction that enters `faulted` is a load of a missing cell (R134). -/
theorem exec_next_faulted (hf : s.fsm ≠ .faulted) (h : exec i s = .next t) (ht : t.fsm = .faulted) :
    ∃ r addr, i = .loadWord r addr ∧ s.mem.size ≤ cellAddress addr + 1 ∧ t = s.takeFault .accessBeyondImage := by
  rcases exec_next_cases h with hload | ⟨-, rfl⟩ | ⟨r, addr, m, -, -, rfl⟩ | ⟨r, v, -, rfl, -⟩
  · exact hload
  · cases ht
  · exact absurd ht hf
  · rw [State.retire_fsm, State.writeReg_fsm] at ht
    exact absurd ht hf

/-- R134, R135: why a machine with this memory and PC takes the fault `k`: the decoder fails with it, or a `LoadWord` at
`0x13` finds 20 cells. -/
def FaultCause (m : Memory) (pc : Word) (k : ErrorKind) : Prop :=
  decode m pc = .error k ∨ (k = .accessBeyondImage ∧ m.size = 20 ∧ ∃ r, decode m pc = .ok (.loadWord r 0x13))

/-- A step of a running engine enters `faulted` by fault entry alone, with a cause at PC. -/
theorem step_next_faulted (hf : s.fsm = .running) (h : step s = .next t) (ht : t.fsm = .faulted) :
    ∃ k, t = s.takeFault k ∧ FaultCause s.mem s.pc k := by
  rcases step_next_cases h with ⟨hterminal, -⟩ | ⟨-, hsize, ⟨k, hd, rfl⟩ | ⟨i, hd, he⟩⟩
  · exact absurd hf hterminal
  · exact ⟨k, rfl, .inl hd⟩
  · obtain ⟨r, addr, rfl, hmiss, rfl⟩ := exec_next_faulted (by simp [hf]) he ht
    obtain ⟨rfl, h20⟩ := (loadWord_cell_missing_iff (wellFormed_of_decode hd) hsize).1 hmiss
    exact ⟨_, rfl, .inr ⟨rfl, h20, r, hd⟩⟩

/-- Settles O36: the state entered is `takeFault` of the state before. -/
theorem faultEntryIsPrecise : Obligations.FaultEntryIsPrecise := by
  intro s t hf h ht
  obtain ⟨k, rfl, hcause⟩ := step_next_faulted hf h ht
  exact ⟨k, rfl, rfl, rfl, rfl, rfl, rfl, hcause⟩

theorem faultInv_of_cause (h : s.fsm = .faulted → ∃ k, s.err = some k ∧ FaultCause s.mem s.pc k) : FaultInv s := by
  intro hf
  obtain ⟨k, herr, hd | ⟨rfl, hsize, hload⟩⟩ := h hf
  · exact .inl ⟨k, herr, hd⟩
  · exact .inr ⟨herr, hsize, hload⟩

/-- Settles O44: a step that enters `faulted` leaves PC and the memory, so the cause it found still stands there. -/
theorem stepKeepsFaultInv : Obligations.StepKeepsFaultInv := by
  intro s t hs h
  by_cases hf : s.fsm = .running
  · refine faultInv_of_cause fun ht => ?_
    obtain ⟨k, rfl, hcause⟩ := step_next_faulted hf h ht
    exact ⟨k, rfl, hcause⟩
  · obtain rfl := eq_of_step_not_running hf h
    exact hs

/-! The cells a step writes. -/

/-- R34, R78: a well-formed instruction writes no cell outside `0x0e` to `0x10`. -/
theorem exec_next_cell?_outside (hi : i.WellFormed) (h : exec i s = .next t) {a : Nat} (ha : a < 0x0e ∨ 0x10 < a) :
    t.mem.cell? a = s.mem.cell? a := by
  by_cases hstore : ∃ r addr, i = .storeWord r addr
  · obtain ⟨r, addr, rfl⟩ := hstore
    obtain ⟨m, hw, rfl⟩ := execStoreWord_next h
    obtain ⟨hlow, hhigh⟩ := (Instr.wellFormed_storeWord_iff r addr).1 hi
    have hne : a ≠ cellAddress addr := by rw [cellAddress_eq]; omega
    have hne' : a ≠ cellAddress addr + 1 := by rw [cellAddress_eq]; omega
    rw [State.retire_mem, Memory.cell?_writeWord hw, if_neg hne, if_neg hne']
  · rw [exec_next_mem_of_not_store (fun r addr e => hstore ⟨r, addr, e⟩) h]

theorem step_next_mem_size (h : step s = .next t) : t.mem.size = s.mem.size := by
  rcases step_next_cases h with ⟨-, rfl⟩ | ⟨-, -, ⟨k, -, rfl⟩ | ⟨i, -, he⟩⟩
  · rfl
  · rfl
  · exact exec_next_mem_size he

theorem step_next_cell?_outside (h : step s = .next t) {a : Nat} (ha : a < 0x0e ∨ 0x10 < a) :
    t.mem.cell? a = s.mem.cell? a := by
  rcases step_next_cases h with ⟨-, rfl⟩ | ⟨-, -, ⟨k, -, rfl⟩ | ⟨i, hd, he⟩⟩
  · rfl
  · rfl
  · exact exec_next_cell?_outside (wellFormed_of_decode hd) he ha

theorem step_next_mem_of_not_store (hi : ∀ r addr, decode s.mem s.pc ≠ .ok (.storeWord r addr))
    (h : step s = .next t) : t.mem = s.mem := by
  rcases step_next_cases h with ⟨-, rfl⟩ | ⟨-, -, ⟨k, -, rfl⟩ | ⟨i, hd, he⟩⟩
  · rfl
  · rfl
  · refine exec_next_mem_of_not_store (fun r addr e => hi r addr ?_) he
    rw [hd, e]

/-- Settles O40, from the three frames of a step's memory. -/
theorem stepWritesOnlyCellsReachedByStores : Obligations.StepWritesOnlyCellsReachedByStores :=
  fun _ _ h => ⟨step_next_mem_size h, fun _ ha => step_next_cell?_outside h ha,
    fun hi a => by rw [step_next_mem_of_not_store hi h]⟩

/-! The trace and `err`. -/

/-- R99, R107: an instruction that executes records itself, and only a load of a missing cell does not. -/
theorem exec_next_trace (h : exec i s = .next t) :
    t.trace = s.trace ++ [i] ∨
    ((∃ r addr, i = .loadWord r addr ∧ s.mem.size ≤ cellAddress addr + 1) ∧
      t.trace = s.trace ∧ t.fsm = .faulted ∧ t.err = some .accessBeyondImage) := by
  rcases exec_next_cases h with
    ⟨r, addr, rfl, hmiss, rfl⟩ | ⟨rfl, rfl⟩ | ⟨r, addr, m, -, -, rfl⟩ | ⟨r, v, -, rfl, -⟩
  · exact .inr ⟨⟨r, addr, rfl, hmiss⟩, rfl, rfl, rfl⟩
  · exact .inl rfl
  · exact .inl rfl
  · exact .inl (by rw [State.retire_trace, State.writeReg_trace])

/-- A step of a running engine that does not fault executed what it decoded. -/
theorem step_next_executed (hf : s.fsm = .running) (h : step s = .next t) (ht : t.fsm ≠ .faulted) :
    ∃ i, decode s.mem s.pc = .ok i ∧ exec i s = .next t := by
  rcases step_next_cases h with ⟨hterminal, -⟩ | ⟨-, -, ⟨k, -, rfl⟩ | hexec⟩
  · exact absurd hf hterminal
  · exact absurd rfl ht
  · exact hexec

/-- Settles O41: an instruction executed without a fault records itself; fault entry and a terminal state leave the
trace. -/
theorem traceRecordsExecutedInstructions : Obligations.TraceRecordsExecutedInstructions := by
  refine ⟨fun i s t h => exec_next_trace h, fun s t h => ⟨fun hf ht => ?_, fun hstop => ?_⟩⟩
  · obtain ⟨i, hd, he⟩ := step_next_executed hf h ht
    rcases exec_next_trace he with htrace | ⟨-, -, hfaulted, -⟩
    · exact ⟨i, hd, htrace⟩
    · exact absurd hfaulted ht
  · by_cases hf : s.fsm = .running
    · obtain ⟨k, rfl, -⟩ := step_next_faulted hf h (hstop.resolve_left (not_not.2 hf))
      rfl
    · obtain rfl := eq_of_step_not_running hf h
      rfl

/-- R19: only fault entry records an error. -/
theorem step_next_err (hf : s.fsm = .running) (h : step s = .next t) (ht : t.fsm ≠ .faulted) : t.err = s.err := by
  obtain ⟨i, -, he⟩ := step_next_executed hf h ht
  rcases exec_next_fsm_err_cases he with ⟨hfaulted, -⟩ | ⟨-, herr⟩
  · exact absurd hfaulted ht
  · exact herr

/-! The advance. -/

/-- R94: an executed instruction that leaves the engine running and does not name PC advances PC by 3, wrapped. -/
theorem exec_next_pc (h : exec i s = .next t) (ht : t.fsm = .running) (hi : i.destination ≠ some .pc) :
    t.pc.toNat = (s.pc.toNat + 3) % 65536 := by
  rcases exec_next_cases h with
    ⟨r, addr, -, -, rfl⟩ | ⟨-, rfl⟩ | ⟨r, addr, m, rfl, -, rfl⟩ | ⟨r, v, -, rfl, hr⟩
  · cases ht
  · cases ht
  · exact State.toNat_retire_pc _ _
  · have hdest : i.destination = some r ∧ i.size = 3 := by
      rcases hr with ⟨addr, rfl, -⟩ | ⟨b, rfl, -⟩ | ⟨b, rfl, -⟩ <;> exact ⟨rfl, rfl⟩
    have hne : r ≠ .pc := fun e => hi (hdest.1.trans (congrArg some e))
    rw [State.toNat_retire_pc, State.writeReg_pc_of_ne _ _ hne, hdest.2]

/-- Settles O38, from the advance of the instruction the step executed. -/
theorem stepWithoutPcDestinationAdvancesByThree : Obligations.StepWithoutPcDestinationAdvancesByThree := by
  intro s t i hf h ht hd hi
  obtain ⟨j, hd', he⟩ := step_next_executed hf h (by simp [ht])
  obtain rfl := Except.ok.inj (hd.symm.trans hd')
  exact exec_next_pc he ht hi

end Sys2Proof.Machine

/-! Construction and reset (70_reset_and_hazards.md R150 to R153), the stops of a cycle (41_engine_cycle.md R92, R98)
and the remaining meanings (42_load_store.md, 43_add_sub.md, 44_halt.md). -/

namespace Sys2Proof.Machine

variable {s t : State} {r : Reg} {addr : Byte}

/-! The memory of an image. -/

/-- A cell in front of the first one of an image is not listed. -/
theorem lookupCell_cellsFrom_of_lt {bs : List Byte} {a x : Nat} (h : x < a) :
    lookupCell (cellsFrom a bs) x = unlistedByte := by
  by_contra hne
  have hmem : (x, lookupCell (cellsFrom a bs) x) ∈ cellsFrom a bs :=
    (mem_iff_lookupCell (cellsFrom_sorted bs a) (fun c hc => (mem_cellsFrom hc).2.2) x _).2 ⟨rfl, hne⟩
  obtain ⟨hle, -⟩ := mem_cellsFrom hmem
  exact Nat.not_lt.2 hle h

/-- The listed cells of an image that starts at `a` give the cell at distance `k` from it the image's byte `k`. -/
theorem lookupCell_cellsFrom_add (bs : List Byte) (a k : Nat) :
    lookupCell (cellsFrom a bs) (a + k) = bs[k]?.getD unlistedByte := by
  induction bs generalizing a k with
  | nil => rfl
  | cons b bs ih =>
    have hlater (k : Nat) : lookupCell (cellsFrom (a + 1) bs) (a + (k + 1)) = bs[k]?.getD unlistedByte := by
      rw [← ih (a + 1) k, Nat.add_right_comm, Nat.add_assoc]
    rw [cellsFrom]
    cases k with
    | zero =>
      split
      · rename_i hb
        exact (lookupCell_cellsFrom_of_lt (Nat.lt_succ_self a)).trans hb.symm
      · simp [lookupCell]
    | succ k =>
      split
      · exact hlater k
      · rw [lookupCell, if_neg (by omega)]
        exact hlater k

/-- R25, R151: `mem[a] = image[a]`, and no cell beyond the image. -/
theorem Memory.cell?_ofImage (image : List Byte) (a : Nat) : (Memory.ofImage image).cell? a = image[a]? := by
  have hbyte := lookupCell_cellsFrom_add image 0 a
  rw [Nat.zero_add] at hbyte
  simp only [Memory.cell?, Memory.ofImage, hbyte]
  split
  · rename_i ha
    simp [List.getElem?_eq_getElem ha]
  · rename_i ha
    exact (List.getElem?_eq_none (Nat.not_lt.1 ha)).symm

/-- Settles O1: construction is reset but for the memory, which is the image's. -/
theorem constructLoadsImageAndClearsState : Obligations.ConstructLoadsImageAndClearsState := by
  intro image hlen
  have hconstruct : construct image = .next { State.reset with mem := Memory.ofImage image } :=
    if_neg (Nat.not_lt.2 hlen)
  exact ⟨_, hconstruct, rfl, rfl, rfl, rfl, Memory.cell?_ofImage image, rfl, rfl, rfl⟩

/-- Settles O2, by the size test of construction and the one of the cycle. -/
theorem shortImagesAreRefused : Obligations.ShortImagesAreRefused :=
  ⟨fun _ hlen => if_pos hlen, fun _ hf hsize => step_of_short_memory hf hsize⟩

/-- Settles O3: the reset state is running, with an empty trace and no error. -/
theorem resetSatisfiesInvariants : Obligations.ResetSatisfiesInvariants := by
  refine ⟨⟨Nat.le_refl _, State.reset_mem_wf, by decide, nofun⟩, ?_, nofun⟩
  exact haltInv_of_fsm_ne_halted (by decide) (List.not_mem_nil)

/-! The stops of a cycle. -/

/-- Settles O19: the next state is `takeFault`, which writes `fsm` and `err`. -/
theorem decodeFailureTakesFault : Obligations.DecodeFailureTakesFault :=
  fun _ _ hf hsize hd => ⟨_, step_of_decode_error hf hsize hd, rfl, rfl, rfl, rfl, rfl, rfl, rfl, fun _ => rfl⟩

/-- Settles O20, by the arms of the step for the two terminal states. -/
theorem terminalStatesAbsorbSteps : Obligations.TerminalStatesAbsorbSteps := fun _ => step_of_not_running

/-! PC as the destination: the advance is added to the value just written (R95). -/

/-- An instruction of three bytes whose meaning is to put `v` into PC and retire continues at `v` plus 3, and writes
nothing else but the trace. -/
theorem exec_next_of_pc_write {s : State} {i : Instr} {v : Word} (hsize : i.size = 3)
    (he : exec i s = .next ((s.writeReg .pc v).retire i)) :
    ∃ t, exec i s = .next t ∧ t.pc.toNat = (v.toNat + 3) % 65536 ∧ t.gp1 = s.gp1 ∧ t.gp2 = s.gp2 ∧
      t.mem.size = s.mem.size ∧ (∀ a, t.mem.cell? a = s.mem.cell? a) ∧ t.fsm = s.fsm ∧ t.err = s.err := by
  refine ⟨_, he, ?_, rfl, rfl, rfl, fun _ => rfl, rfl, rfl⟩
  rw [State.toNat_retire_pc, State.writeReg_pc_pc, hsize]

/-- Settles O22: the value written is the word of the two cells. -/
theorem loadWordToPcJumps : Obligations.LoadWordToPcJumps := by
  intro s addr lo hi hlo hhi
  rw [← toNat_wordOfBytes]
  exact exec_next_of_pc_write rfl (exec_loadWord_of_cells s .pc hlo hhi)

/-- Settles O27: the value written is the sum, wrapped before the advance. -/
theorem addToPcJumps : Obligations.AddToPcJumps := by
  intro s b
  obtain ⟨t, he, hpc, hframe⟩ := exec_next_of_pc_write rfl (exec_add s .pc b)
  rw [BitVec.toNat_add, Nat.mod_add_mod, State.readReg_pc] at hpc
  exact ⟨t, he, hpc, hframe⟩

/-- Settles O29: the value written is the difference, wrapped before the advance; it is 0 for PC less itself. -/
theorem subToPcJumps : Obligations.SubToPcJumps := by
  intro s b
  obtain ⟨t, he, hpc, hframe⟩ := exec_next_of_pc_write rfl (exec_sub s .pc b)
  refine ⟨t, he, ?diff, ?self, hframe⟩
  case diff => rw [hpc, BitVec.toNat_sub, Nat.mod_add_mod, State.readReg_pc, Nat.add_comm s.pc.toNat]
  case self =>
    rintro rfl
    rw [BitVec.sub_self] at hpc
    exact BitVec.eq_of_toNat_eq hpc

/-! The other meanings. -/

/-- Settles O23: fault entry, and the one well-formed load that misses a cell. -/
theorem loadWordBeyondImageFaults : Obligations.LoadWordBeyondImageFaults :=
  fun s r _ hmiss =>
    ⟨⟨_, exec_loadWord_of_missing s r hmiss, rfl, rfl, rfl, rfl, rfl, rfl, rfl, fun _ => rfl⟩,
      fun hwf hsize => (loadWord_cell_missing_iff hwf hsize).1 hmiss⟩

/-- Settles O25: the two-cell write fails. -/
theorem storeWordBeyondImageStops : Obligations.StoreWordBeyondImageStops := by
  intro s r addr hmiss
  rw [exec, execStoreWord, (Memory.writeWord_eq_none_iff _ _ _).2 hmiss]

theorem exec_halt (s : State) : exec .halt s = .next { s.record .halt with fsm := .halted } := rfl

/-- Settles O30: the state after `Halt` differs in `fsm` and the trace only. -/
theorem haltStopsEngineAtItsAddress : Obligations.HaltStopsEngineAtItsAddress :=
  fun s => ⟨_, exec_halt s, rfl, rfl, rfl, rfl, rfl, rfl, rfl, fun _ => rfl⟩

/-- Settles O31: the second instruction subtracts the same `x[b]` from the sum. -/
theorem subUndoesAdd : Obligations.SubUndoesAdd := by
  intro s a b hab ha hb
  obtain ⟨t, het, hsum, -, hframe, -⟩ := exec_next_of_register_write ha (exec_add s a b)
  obtain ⟨u, heu, hdiff, -, hframe', -⟩ := exec_next_of_register_write ha (exec_sub t a b)
  have hbt : t.readReg b = s.readReg b := hframe b hab.symm hb
  refine ⟨t, u, het, heu, ?_, (hframe' b hab.symm hb).trans hbt⟩
  rw [hdiff, hsum, hbt, BitVec.add_sub_cancel]

/-! A load after a store. -/

/-- R105: a load that reads a word puts it into its destination. -/
theorem exec_loadWord_of_readWord {v : Word} (hr : r ≠ .pc) (h : s.mem.readWord (cellAddress addr) = some v) :
    ∃ t, exec (.loadWord r addr) s = .next t ∧ t.readReg r = v := by
  obtain ⟨lo, hi, hlo, hhi, rfl⟩ := (Memory.readWord_eq_some_iff _ _ _).1 h
  obtain ⟨t, he, hvalue, -⟩ := exec_next_of_register_write hr (exec_loadWord_of_cells s r hlo hhi)
  exact ⟨t, he, hvalue⟩

/-- Settles O32: the read after the write gives the word, which the load puts into its destination. -/
theorem storeThenLoadReturnsValue : Obligations.StoreThenLoadReturnsValue := by
  refine ⟨fun m m' a v => Memory.readWord_of_writeWord, fun s r q addr hq hlt => ?_⟩
  obtain ⟨m, hw, het⟩ := exec_storeWord_of_lt r hlt
  obtain ⟨u, heu, hvalue⟩ :=
    exec_loadWord_of_readWord (s := State.retire { s with mem := m } (.storeWord r addr)) hq
      (Memory.readWord_of_writeWord hw)
  exact ⟨_, u, het, heu, hvalue⟩

/-- Settles O33: the store writes cells `0x0f` and `0x10`, so the result reads old `0x0e` with the low byte, and the
load reads the high byte with old `0x11`. -/
theorem storeAtOutputBandEndReachesInputBand : Obligations.StoreAtOutputBandEndReachesInputBand := by
  intro s r q b0e b11 hq h0e h11
  have hlt : 0x11 < s.mem.size := (s.mem.cell?_isSome_iff _).1 (by rw [h11]; rfl)
  obtain ⟨m, hw, het⟩ := exec_storeWord_of_lt (addr := 0x0f) r (Nat.lt_of_succ_lt hlt)
  have hcell (a : Nat) := Memory.cell?_writeWord hw a
  have hresult : m.readWord 0x0e = some (wordOfBytes b0e (lowByte (s.readReg r))) :=
    (Memory.readWord_eq_some_iff _ _ _).2 ⟨_, _, (hcell 0x0e).trans h0e, hcell 0x0f, rfl⟩
  have hload : m.readWord 0x10 = some (wordOfBytes (highByte (s.readReg r)) b11) :=
    (Memory.readWord_eq_some_iff _ _ _).2 ⟨_, _, hcell 0x10, (hcell 0x11).trans h11, rfl⟩
  obtain ⟨u, heu, hvalue⟩ :=
    exec_loadWord_of_readWord (s := State.retire { s with mem := m } (.storeWord r 0x0f)) (addr := 0x10) hq hload
  refine ⟨_, u, _, het, hresult, ?_, heu, ?_⟩
  · rw [toNat_wordOfBytes, toNat_lowByte]
  · rw [hvalue, toNat_wordOfBytes, toNat_highByte]

end Sys2Proof.Machine

/-! Agreement of two machines (20_memory.md R34): machines that agree on the cells an instruction can read take steps
that agree again. -/

namespace Sys2Proof

open Sys2Proof.Machine

variable {P : Nat → Prop} {s t s' t' : State}

/-- The cells some instruction can read (R33, R34): the instruction band, and the two cells of every load. -/
def ReadableCell (a : Nat) : Prop := a ≤ 0x0d ∨ (0x10 ≤ a ∧ a ≤ 0x14)

namespace AgreeOn

/-! What keeps agreement. -/

theorem readReg (h : AgreeOn P s t) (r : Reg) : s.readReg r = t.readReg r := by
  cases r with
  | pc => exact h.pc
  | gp1 => exact h.gp1
  | gp2 => exact h.gp2

theorem takeFault (h : AgreeOn P s t) (k : ErrorKind) : AgreeOn P (s.takeFault k) (t.takeFault k) :=
  ⟨h.pc, h.gp1, h.gp2, rfl, rfl, h.trace, h.cells⟩

theorem writeReg (h : AgreeOn P s t) (r : Reg) (v : Word) : AgreeOn P (s.writeReg r v) (t.writeReg r v) := by
  cases r with
  | pc => exact { h with pc := rfl }
  | gp1 => exact { h with gp1 := rfl }
  | gp2 => exact { h with gp2 := rfl }

theorem retire (h : AgreeOn P s t) (i : Instr) : AgreeOn P (s.retire i) (t.retire i) where
  pc := by rw [State.retire_pc, State.retire_pc, h.pc]
  gp1 := h.gp1
  gp2 := h.gp2
  fsm := h.fsm
  err := h.err
  trace := by rw [State.retire_trace, State.retire_trace, h.trace]
  cells := h.cells

theorem halt (h : AgreeOn P s t) :
    AgreeOn P { s.record .halt with fsm := .halted } { t.record .halt with fsm := .halted } where
  pc := h.pc
  gp1 := h.gp1
  gp2 := h.gp2
  fsm := rfl
  err := h.err
  trace := by simp [h.trace]
  cells := h.cells

/-- The same word written at the same address: the two cells written agree, every other cell did. -/
theorem writeWord (h : AgreeOn P s t) {m n : Memory} {a : Nat} {v : Word} (hm : s.mem.writeWord a v = some m)
    (hn : t.mem.writeWord a v = some n) : AgreeOn P { s with mem := m } { t with mem := n } where
  pc := h.pc
  gp1 := h.gp1
  gp2 := h.gp2
  fsm := h.fsm
  err := h.err
  trace := h.trace
  cells x hx := by
    change m.cell? x = n.cell? x
    rw [Memory.cell?_writeWord hm, Memory.cell?_writeWord hn, h.cells x hx]

/-! What agreement makes equal. -/

theorem decode_eq (h : AgreeOn P s t) (hP : ∀ a, ReadableCell a → P a) :
    decode s.mem s.pc = decode t.mem t.pc := by
  rw [h.pc]
  exact decode_congr_of_band (fun a ha => h.cells a (hP a (.inl ha))) _

/-- R34, R77: a well-formed load reads cells `0x10` to `0x14` only. -/
theorem readWord_eq (h : AgreeOn P s t) (hP : ∀ a, ReadableCell a → P a) {r : Reg} {addr : Byte}
    (hi : (Instr.loadWord r addr).WellFormed) :
    s.mem.readWord (cellAddress addr) = t.mem.readWord (cellAddress addr) := by
  obtain ⟨hlow, hhigh⟩ := (Instr.wellFormed_loadWord_iff r addr).1 hi
  have hlo := h.cells (cellAddress addr) (hP _ (.inr ⟨hlow, Nat.le_succ_of_le hhigh⟩))
  have hhi := h.cells (cellAddress addr + 1) (hP _ (.inr ⟨Nat.le_succ_of_le hlow, Nat.succ_le_succ hhigh⟩))
  rw [Memory.readWord, Memory.readWord, hlo, hhi]

/-! The step. -/

/-- One well-formed instruction executed in two machines that agree on the readable cells. -/
theorem exec_next (h : AgreeOn P s t) (hP : ∀ a, ReadableCell a → P a) {i : Instr} (hi : i.WellFormed)
    (hs : exec i s = .next s') (ht : exec i t = .next t') : AgreeOn P s' t' := by
  cases i with
  | loadWord r addr =>
    have hread := h.readWord_eq hP hi
    rw [exec, execLoadWord] at hs ht
    rw [← hread] at ht
    cases hv : s.mem.readWord (cellAddress addr) with
    | none =>
      rw [hv] at hs ht
      cases hs
      cases ht
      exact h.takeFault _
    | some v =>
      rw [hv] at hs ht
      cases hs
      cases ht
      exact (h.writeReg r v).retire _
  | storeWord r addr =>
    obtain ⟨m, hm, rfl⟩ := execStoreWord_next hs
    obtain ⟨n, hn, rfl⟩ := execStoreWord_next ht
    rw [← h.readReg r] at hn
    exact (h.writeWord hm hn).retire _
  | add a b =>
    cases hs
    cases ht
    rw [h.readReg a, h.readReg b]
    exact (h.writeReg a _).retire _
  | sub a b =>
    cases hs
    cases ht
    rw [h.readReg a, h.readReg b]
    exact (h.writeReg a _).retire _
  | halt =>
    cases hs
    cases ht
    exact h.halt

/-- R34: steps of two machines that agree on the readable cells, and on any others, agree again. -/
theorem step_next (h : AgreeOn P s t) (hP : ∀ a, ReadableCell a → P a) (hsize : 20 ≤ s.mem.size)
    (hsize' : 20 ≤ t.mem.size) (hs : step s = .next s') (ht : step t = .next t') : AgreeOn P s' t' := by
  by_cases hf : s.fsm = .running
  · have hf' : t.fsm = .running := h.fsm ▸ hf
    have hdecode := h.decode_eq hP
    cases hd : decode s.mem s.pc with
    | error k =>
      rw [step_of_decode_error hf hsize hd] at hs
      rw [step_of_decode_error hf' hsize' (hdecode ▸ hd)] at ht
      cases hs
      cases ht
      exact h.takeFault k
    | ok i =>
      rw [step_of_decode_ok hf hsize hd] at hs
      rw [step_of_decode_ok hf' hsize' (hdecode ▸ hd)] at ht
      exact h.exec_next hP (wellFormed_of_decode hd) hs ht
  · obtain rfl := eq_of_step_not_running hf hs
    obtain rfl := eq_of_step_not_running (h.fsm ▸ hf) ht
    exact h

/-- Both machines take a step, and the two agree again. -/
theorem exists_steps (h : AgreeOn P s t) (hP : ∀ a, ReadableCell a → P a) (hsize : 20 ≤ s.mem.size)
    (hsize' : 20 ≤ t.mem.size) : ∃ s' t', step s = .next s' ∧ step t = .next t' ∧ AgreeOn P s' t' := by
  obtain ⟨s', hs⟩ := stepAnswersOnEveryImage s hsize
  obtain ⟨t', ht⟩ := stepAnswersOnEveryImage t hsize'
  exact ⟨s', t', hs, ht, h.step_next hP hsize hsize' hs ht⟩

end AgreeOn

/-- Settles O46: cells below `0x15` include the readable ones, and a step writes none above `0x10`. -/
theorem cellsAboveTheTwentyFirstAreInert : Obligations.CellsAboveTheTwentyFirstAreInert := by
  intro s t hsize hsize' h
  have hP : ∀ a, ReadableCell a → a < 0x15 := by unfold ReadableCell; omega
  obtain ⟨s', t', hs, ht, h'⟩ := h.exists_steps hP hsize hsize'
  exact ⟨s', t', hs, ht, h', fun a ha => step_next_cell?_outside hs (by omega),
    fun a ha => step_next_cell?_outside ht (by omega)⟩

/-- Settles O47: no readable cell lies in the output band. -/
theorem outputBandIsNeverRead : Obligations.OutputBandIsNeverRead := by
  intro s t hsize hsize' h
  have hP : ∀ a, ReadableCell a → a < 0x0e ∨ 0x0f < a := by unfold ReadableCell; omega
  exact h.exists_steps hP hsize hsize'

end Sys2Proof

/-! Runs (41_engine_cycle.md R96 to R98; 20_memory.md R43): what steps and `run()` lead to. -/

namespace Sys2Proof

open Sys2Proof.Machine

variable {s t u : State}

/-! Any number of steps. -/

/-- What every step keeps holds wherever steps lead. -/
theorem StepsTo.keeps {I : State → Prop} (hI : ∀ s t, I s → step s = .next t → I t) (h : StepsTo s t) (hs : I s) :
    I t := by
  induction h with
  | refl => exact hs
  | tail _ hstep ih => exact hI _ _ ih hstep

theorem StepsTo.head (hst : step s = .next t) (h : StepsTo t u) : StepsTo s u := by
  induction h with
  | refl => exact .tail (.refl s) hst
  | tail _ hstep ih => exact .tail ih hstep

/-- R43: a step leaves the instruction band, so every PC decodes as before. -/
theorem step_next_decode (h : step s = .next t) (pc : Word) : decode t.mem pc = decode s.mem pc :=
  decode_congr_of_band (fun _ ha => step_next_cell?_outside h (.inl (by omega))) pc

/-- Settles O45, by the decode kept over every step. -/
theorem noRunChangesWhatDecodes : Obligations.NoRunChangesWhatDecodes := by
  intro s t pc h
  exact h.keeps (I := fun u => decode u.mem pc = decode s.mem pc)
    (fun _ _ hu hstep => (step_next_decode hstep pc).trans hu) rfl

/-! `run()`. -/

/-- A cycle of a running engine is its step. -/
theorem RunReturns.of_step (hst : step s = .next t) (h : RunReturns t u) : RunReturns s u := by
  by_cases hf : s.fsm = .running
  · exact .cycled hf (step_of_running hf ▸ hst) h
  · obtain rfl := eq_of_step_not_running hf hst
    exact h

theorem RunReturns.eq_of_not_running (hf : s.fsm ≠ .running) (h : RunReturns s t) : t = s := by
  cases h with
  | stopped => rfl
  | cycled hrun => exact absurd hrun hf

/-- Steps in front of a run are part of it. -/
theorem RunReturns.of_stepsTo (hst : StepsTo s t) (h : RunReturns t u) : RunReturns s u := by
  induction hst with
  | refl => exact h
  | tail _ hstep ih => exact ih (h.of_step hstep)

/-- Settles O48: a run is a chain of steps of a running engine, and steps of one that is not running stay. -/
theorem runIsIterationOfStep : Obligations.RunIsIterationOfStep := by
  intro s t
  constructor
  · intro h
    induction h with
    | stopped hf => exact ⟨.refl _, hf⟩
    | cycled hf hc _ ih => exact ⟨.head ((step_of_running hf).trans hc) ih.1, ih.2⟩
  · rintro ⟨h, hf⟩
    exact .of_stepsTo h (.stopped hf)

/-- A step is a function, so a run has at most one end. -/
theorem RunReturns.unique (h : RunReturns s t) (h' : RunReturns s u) : u = t := by
  induction h with
  | stopped hf => exact h'.eq_of_not_running hf
  | cycled hf hc _ ih =>
    cases h' with
    | stopped hf' => exact absurd hf hf'
    | cycled _ hc' h'' =>
      rw [hc] at hc'
      cases hc'
      exact ih h''

/-- Two machines that agree on the readable cells return alike, by the agreement of each cycle. -/
theorem RunReturns.of_agreeOn {P : Nat → Prop} (hP : ∀ a, ReadableCell a → P a) (h : RunReturns s u)
    (hst : AgreeOn P s t) (hsize : 20 ≤ s.mem.size) (hsize' : 20 ≤ t.mem.size) :
    ∃ u', RunReturns t u' ∧ AgreeOn P u u' := by
  induction h generalizing t with
  | stopped hf => exact ⟨t, .stopped (hst.fsm ▸ hf), hst⟩
  | cycled hf hc _ ih =>
    have hs := (step_of_running hf).trans hc
    obtain ⟨t₁, ht⟩ := stepAnswersOnEveryImage t hsize'
    have hnext := hst.step_next hP hsize hsize' hs ht
    obtain ⟨u', hu', hagree⟩ :=
      ih hnext (by rwa [step_next_mem_size hs]) (by rwa [step_next_mem_size ht])
    exact ⟨u', hu'.of_step ht, hagree⟩

/-- Settles O49: the cells named are the readable ones, and a run has one end. -/
theorem runEndIsFixedByProgramAndInput : Obligations.RunEndIsFixedByProgramAndInput := by
  intro s t s' hsize hsize' hst h
  obtain ⟨t', ht', hagree⟩ := h.of_agreeOn (fun _ ha => ha) hst hsize hsize'
  exact ⟨t', ht', hagree, fun _ hu => ht'.unique hu⟩

/-- R97, R125: the cycle that completes a run executed the `Halt` at the PC where it stands. -/
theorem step_next_halted (hf : s.fsm = .running) (h : step s = .next t) (ht : t.fsm = .halted) :
    decode t.mem t.pc = .ok .halt ∧ t.trace.getLast? = some .halt ∧ t.err = s.err := by
  have hd : decode s.mem s.pc = .ok .halt := (onlyHaltEntersHalted s t hf h).1 ht
  obtain ⟨i, hd', he⟩ := step_next_executed hf h (by simp [ht])
  obtain rfl := Except.ok.inj (hd.symm.trans hd')
  cases he
  exact ⟨hd, List.getLast?_concat, rfl⟩

/-- Settles O50, by induction on the run: only its last cycle enters `halted`, and no earlier one records an error. -/
theorem completedRunEndsAtItsHalt : Obligations.CompletedRunEndsAtItsHalt := by
  intro s u hf h hhalted
  induction h with
  | stopped hstop => exact absurd hf hstop
  | @cycled s t u _ hc hrun ih =>
    have hst : step s = .next t := (step_of_running hf).trans hc
    by_cases ht : t.fsm = .running
    · obtain ⟨hd, htrace, herr⟩ := ih ht hhalted
      exact ⟨hd, htrace, herr.trans (step_next_err hf hst (by simp [ht]))⟩
    · obtain rfl := hrun.eq_of_not_running ht
      exact step_next_halted hf hst hhalted

/-! A number of steps of `Host.Core.run`. -/

/-- A run of one step more ends with that step. -/
theorem core_run_succ_last {k : Nat} (h : Host.Core.run core k s = .next t) (hst : step t = .next u) :
    Host.Core.run core (k + 1) s = .next u := by
  induction k generalizing s with
  | zero =>
    cases h
    exact core_run_succ hst 0
  | succ k ih =>
    cases hs : step s with
    | next s₁ =>
      rw [core_run_succ hs] at h ⊢
      exact ih h
    | fault r =>
      have hs' : core.step s = .fault r := hs
      simp [Host.Core.run, hs'] at h
    | refused r =>
      have hs' : core.step s = .refused r := hs
      simp [Host.Core.run, hs'] at h

/-! Code that never writes PC (R97). -/

/-- A cycle that stays in `running` decoded its three bytes inside the instruction band. -/
theorem pc_le_of_step_next_running (hf : s.fsm = .running) (h : step s = .next t) (ht : t.fsm = .running) :
    s.pc.toNat ≤ 0x000b := by
  obtain ⟨i, hd, he⟩ := step_next_executed hf h (by simp [ht])
  obtain ⟨hband, -⟩ := encodeInvertsDecode _ _ _ hd
  have hsize : i.size = 3 := by
    cases i with
    | halt =>
      cases he
      cases ht
    | _ => rfl
  omega

/-- A step over an image, at an instruction that does not name PC, leaves `running` or continues three cells later. -/
theorem exists_step_of_no_pc_destination (hsize : 20 ≤ s.mem.size)
    (hi : s.fsm = .running → ∀ i, decode s.mem s.pc = .ok i → i.destination ≠ some .pc) :
    ∃ t, step s = .next t ∧
      (t.fsm = .running → s.fsm = .running ∧ t.pc.toNat = (s.pc.toNat + 3) % 65536) := by
  obtain ⟨t, hst⟩ := stepAnswersOnEveryImage s hsize
  refine ⟨t, hst, fun ht => ?_⟩
  by_cases hf : s.fsm = .running
  · obtain ⟨i, hd, he⟩ := step_next_executed hf hst (by simp [ht])
    exact ⟨hf, exec_next_pc he ht (hi hf i hd)⟩
  · obtain rfl := eq_of_step_not_running hf hst
    exact absurd ht hf

/-- The first cycles of code that never writes PC: while the engine runs, the `k`-th cycle is at address `3 * k`. -/
theorem exists_straight_run (hpc : s.pc = 0x0000) (hsize : 20 ≤ s.mem.size)
    (hi : ∀ p ∈ [(0x0000 : Word), 0x0003, 0x0006, 0x0009], ∀ i, decode s.mem p = .ok i → i.destination ≠ some .pc)
    {k : Nat} (hk : k ≤ 4) :
    ∃ t, Host.Core.run core k s = .next t ∧ StepsTo s t ∧ 20 ≤ t.mem.size ∧
      (t.fsm = .running → t.pc.toNat = 3 * k) := by
  induction k with
  | zero => exact ⟨s, rfl, .refl s, hsize, fun _ => by rw [hpc]; rfl⟩
  | succ k ih =>
    obtain ⟨t, hrun, hsteps, htsize, htpc⟩ := ih (Nat.le_of_succ_le hk)
    have hti : t.fsm = .running → ∀ i, decode t.mem t.pc = .ok i → i.destination ≠ some .pc := by
      intro ht i hd
      have hpck : t.pc.toNat = 3 * k := htpc ht
      have hmem : t.pc ∈ [(0x0000 : Word), 0x0003, 0x0006, 0x0009] := by
        simp only [List.mem_cons, List.not_mem_nil, or_false]
        bv_omega
      exact hi t.pc hmem i (noRunChangesWhatDecodes s t t.pc hsteps ▸ hd)
    obtain ⟨u, htu, hnext⟩ := exists_step_of_no_pc_destination htsize hti
    refine ⟨u, core_run_succ_last hrun htu, .tail hsteps htu, by rwa [step_next_mem_size htu], fun hu => ?_⟩
    obtain ⟨ht, hupc⟩ := hnext hu
    rw [hupc, htpc ht]
    omega

/-- Settles O51: a fifth cycle would be at `0x0c`, where only `Halt` decodes. -/
theorem runsWithoutPcWritesEndWithinFiveCycles : Obligations.RunsWithoutPcWritesEndWithinFiveCycles := by
  intro s _ hpc hsize hi
  obtain ⟨t, hrun, hsteps, htsize, htpc⟩ := exists_straight_run hpc hsize hi (Nat.le_refl 4)
  obtain ⟨u, htu⟩ := stepAnswersOnEveryImage t htsize
  have hu : u.fsm ≠ .running := by
    intro hu
    by_cases ht : t.fsm = .running
    · have hle := pc_le_of_step_next_running ht htu hu
      rw [htpc ht] at hle
      omega
    · obtain rfl := eq_of_step_not_running ht htu
      exact ht hu
  exact ⟨u, core_run_succ_last hrun htu, hu, (runIsIterationOfStep s u).2 ⟨.tail hsteps htu, hu⟩⟩

/-! The smallest endless run (R97, R119). -/

/-- A running engine over an image, at `p`, where `Sub(PC, r)` stands, with `x[r] = 3`. -/
structure AtSelfLoop (r : Reg) (p : Word) (s : State) : Prop where
  fsm : s.fsm = .running
  size : 20 ≤ s.mem.size
  pc : s.pc = p
  instr : decode s.mem p = .ok (.sub .pc r)
  operand : s.readReg r = 0x0003

/-- R95, R119: what the subtraction takes from PC the advance adds again. -/
theorem AtSelfLoop.exists_step {r : Reg} {p : Word} (hr : r ≠ .pc) (h : AtSelfLoop r p s) :
    ∃ t, step s = .next t ∧ AtSelfLoop r p t := by
  have hd : decode s.mem s.pc = .ok (.sub .pc r) := by rw [h.pc, h.instr]
  refine ⟨_, (step_of_decode_ok h.fsm h.size hd).trans (exec_sub s .pc r), h.fsm, h.size, ?pc, h.instr, ?operand⟩
  case pc =>
    rw [State.retire_pc, State.writeReg_pc_pc, h.operand, State.readReg_pc, h.pc]
    exact BitVec.sub_add_cancel p 0x0003
  case operand => rw [State.readReg_retire _ _ hr, State.readReg_writeReg, if_neg hr, h.operand]

theorem AtSelfLoop.core_run {r : Reg} {p : Word} (hr : r ≠ .pc) (h : AtSelfLoop r p s) (k : Nat) :
    ∃ t, Host.Core.run core k s = .next t ∧ AtSelfLoop r p t := by
  induction k with
  | zero => exact ⟨s, rfl, h⟩
  | succ k ih =>
    obtain ⟨t, hrun, ht⟩ := ih
    obtain ⟨u, htu, hu⟩ := ht.exists_step hr
    exact ⟨u, core_run_succ_last hrun htu, hu⟩

theorem AtSelfLoop.stepsTo {r : Reg} {p : Word} (hr : r ≠ .pc) (h : AtSelfLoop r p s) (hst : StepsTo s t) :
    AtSelfLoop r p t := by
  refine hst.keeps (fun s t hs hstep => ?_) h
  obtain ⟨t', hstep', ht'⟩ := hs.exists_step hr
  rw [hstep] at hstep'
  cases hstep'
  exact ht'

/-- Settles O52: every step comes back to the same place, so no number of steps leaves `running`. -/
theorem subtractingThreeFromPcNeverEnds : Obligations.SubtractingThreeFromPcNeverEnds := by
  intro s r hf hsize hr hd hoperand
  have hs : AtSelfLoop r s.pc s := ⟨hf, hsize, rfl, hd, hoperand⟩
  constructor
  · intro k
    obtain ⟨t, hrun, ht⟩ := hs.core_run hr k
    exact ⟨t, hrun, ht.fsm, ht.pc⟩
  · intro t hreturns
    obtain ⟨hsteps, hstop⟩ := (runIsIterationOfStep s t).1 hreturns
    exact hstop (hs.stepsTo hr hsteps).fsm

end Sys2Proof
